-- ==== Sys2Proof/Word.lean ====
section
/-! DEFINITION. The word types of the machine (00_scope.md R5, R7): every value is unsigned, bit 0 is the least
significant bit. -/

namespace Sys2Proof

/-- A memory byte, a general register, a timer, an 8-bit immediate `nn`. -/
abbrev Byte := BitVec 8

/-- A 16-bit word: an opcode, `pc`, `I`, a stack slot. -/
abbrev Word := BitVec 16

/-- A 4-bit register index, field `x` or `y` of an opcode; V0 to VF (10_state.md R21). -/
abbrev Reg := BitVec 4

/-- A 4-bit field of an opcode: a family, a sub-discriminant, a sprite height `n`. -/
abbrev Nibble := BitVec 4

/-- The 12-bit field `addr` of an opcode. -/
abbrev Addr := BitVec 12

/-- The flag register VF (10_state.md R22). -/
abbrev vF : Reg := 0xF#4

/-- The frame buffer, row-major: 32 rows of 64 pixels, true is on (10_state.md R31). -/
abbrev Display := Vector (Vector Bool 64) 32

end Sys2Proof
end

