-- ==== Sys2Proof/Syntax.lean ====
section
/-! DEFINITION. The 35 instructions (30_encoding.md R74), one constructor per row of the opcode table, each carrying
the operand fields its variant carries (R72 less the ignored bits of R79, R83). -/

namespace Sys2Proof

/-- The instruction variants. The docstring of each names its pattern and its rule. -/
inductive Instr where
  /-- 00E0 `CLS`, R101. -/
  | cls
  /-- 00EE `RET`, R102. -/
  | ret
  /-- 0nnn `SYS addr`, R103; the address has no effect and is kept for printing only (R79). -/
  | sys (addr : Addr)
  /-- 1nnn `JP addr`, R104. -/
  | jp (addr : Addr)
  /-- 2nnn `CALL addr`, R105. -/
  | call (addr : Addr)
  /-- 3xnn `SE Vx, nn`, R111. -/
  | seImm (x : Reg) (nn : Byte)
  /-- 4xnn `SNE Vx, nn`, R112. -/
  | sneImm (x : Reg) (nn : Byte)
  /-- 5xy- `SE Vx, Vy`, R113. -/
  | seReg (x y : Reg)
  /-- 9xy- `SNE Vx, Vy`, R114. -/
  | sneReg (x y : Reg)
  /-- 6xnn `LD Vx, nn`, R120. -/
  | ldImm (x : Reg) (nn : Byte)
  /-- 7xnn `ADD Vx, nn`, R121. -/
  | addImm (x : Reg) (nn : Byte)
  /-- 8xy0 `LD Vx, Vy`, R131. -/
  | ldReg (x y : Reg)
  /-- 8xy1 `OR Vx, Vy`, R132. -/
  | orReg (x y : Reg)
  /-- 8xy2 `AND Vx, Vy`, R133. -/
  | andReg (x y : Reg)
  /-- 8xy3 `XOR Vx, Vy`, R134. -/
  | xorReg (x y : Reg)
  /-- 8xy4 `ADD Vx, Vy`, R135. -/
  | addReg (x y : Reg)
  /-- 8xy5 `SUB Vx, Vy`, R136. -/
  | sub (x y : Reg)
  /-- 8x-6 `SHR Vx`, R137. -/
  | shr (x : Reg)
  /-- 8xy7 `SUBN Vx, Vy`, R138. -/
  | subn (x y : Reg)
  /-- 8x-E `SHL Vx`, R139. -/
  | shl (x : Reg)
  /-- Annn `LD I, addr`, R150. -/
  | ldI (addr : Addr)
  /-- Bnnn `JP V0, addr`, R151. -/
  | jpV0 (addr : Addr)
  /-- Cxnn `RND Vx, nn`, R152. -/
  | rnd (x : Reg) (nn : Byte)
  /-- Dxyn `DRW Vx, Vy, n`, R160. -/
  | drw (x y : Reg) (n : Nibble)
  /-- Ex9E `SKP Vx`, R170. -/
  | skp (x : Reg)
  /-- ExA1 `SKNP Vx`, R171. -/
  | sknp (x : Reg)
  /-- Fx07 `LD Vx, DT`, R180. -/
  | ldVxDt (x : Reg)
  /-- Fx0A `LD Vx, K`, R181. -/
  | ldVxK (x : Reg)
  /-- Fx15 `LD DT, Vx`, R182. -/
  | ldDtVx (x : Reg)
  /-- Fx18 `LD ST, Vx`, R183. -/
  | ldStVx (x : Reg)
  /-- Fx1E `ADD I, Vx`, R184. -/
  | addI (x : Reg)
  /-- Fx29 `LD F, Vx`, R185. -/
  | ldF (x : Reg)
  /-- Fx33 `LD B, Vx`, R186. -/
  | ldB (x : Reg)
  /-- Fx55 `LD [I], Vx`, R187. -/
  | stRegs (x : Reg)
  /-- Fx65 `LD Vx, [I]`, R188. -/
  | ldRegs (x : Reg)
deriving DecidableEq, Repr

end Sys2Proof
end

