-- ==== Sys2Proof/WellFormed.lean ====
section
/-! DEFINITION. Which terms of `Instr` are instructions of the machine. Every field's range is its type's; the one
relation left is that 0x00E0 and 0x00EE are not legacy calls (30_encoding.md R76). -/

namespace Sys2Proof

/-- The word 0x0nnn of a legacy call is neither 0x00E0 (clear screen) nor 0x00EE (return). -/
def Instr.wellFormed : Instr → Bool
  | .sys addr => addr != 0x0E0#12 && addr != 0x0EE#12
  | .cls | .ret | .jp _ | .call _ => true
  | .seImm _ _ | .sneImm _ _ | .seReg _ _ | .sneReg _ _ => true
  | .ldImm _ _ | .addImm _ _ => true
  | .ldReg _ _ | .orReg _ _ | .andReg _ _ | .xorReg _ _ | .addReg _ _ | .sub _ _ | .shr _ | .subn _ _ | .shl _ => true
  | .ldI _ | .jpV0 _ | .rnd _ _ => true
  | .drw _ _ _ => true
  | .skp _ | .sknp _ => true
  | .ldVxDt _ | .ldVxK _ | .ldDtVx _ | .ldStVx _ | .addI _ | .ldF _ | .ldB _ | .stRegs _ | .ldRegs _ => true

end Sys2Proof
end

