-- ==== Sys2Proof/Config.lean ====
section
/-! DEFINITION. The implementation parameters at their reference values (00_scope.md R5, 92_eei_decisions.md D20),
and the one free value of the machine, the random byte. -/

namespace Sys2Proof

/-- `MEM_SIZE`: addresses 0x000 to 0xFFF. -/
abbrev Config.memSize : Nat := 4096

/-- `PROGRAM_ORIGIN`: where the loader writes. -/
abbrev Config.programOrigin : Nat := 0x200

/-- The most bytes the loader may write, `MEM_SIZE - PROGRAM_ORIGIN` (20_memory.md R62). -/
abbrev Config.maxProgram : Nat := 3584

/-- `GLYPH_BYTES`: bytes of one glyph of the font. -/
abbrev Config.glyphBytes : Nat := 5

/-- The program counter after reset (10_state.md R37, the spec's own decision D1; assumption 2). -/
abbrev Config.resetPc : Word := 0x0200#16

/-- FREE VALUE (assumption 1). The random bytes of the machine: the byte of the `k`th draw. It has no body, so nothing
can be proved of any of its values: 44_index_jumpoffset_random.md R152, "a free draw". -/
opaque Config.randomByte : Nat → Byte

end Sys2Proof
end

