-- ==== Sys2Proof/Machine/Memory.lean ====
section
/-! DEFINITION. The memory (20_memory.md): 4096 bytes, addresses 0x000 to 0xFFF, kept as a list of cells in one
canonical form; what an address that is not listed reads as; the font. -/

namespace Sys2Proof.Machine

/-- The memory as plain data: the bytes that differ from their reset content, by rising address. -/
abbrev Memory := List Host.Cell

/-- The 80 font bytes, 16 glyphs of 5 (20_memory.md R52; assumption 4). -/
def fontTable : List Byte :=
  [0xF0#8, 0x90#8, 0x90#8, 0x90#8, 0xF0#8, 0x20#8, 0x60#8, 0x20#8, 0x20#8, 0x70#8] ++
  [0xF0#8, 0x10#8, 0xF0#8, 0x80#8, 0xF0#8, 0xF0#8, 0x10#8, 0xF0#8, 0x10#8, 0xF0#8] ++
  [0x90#8, 0x90#8, 0xF0#8, 0x10#8, 0x10#8, 0xF0#8, 0x80#8, 0xF0#8, 0x10#8, 0xF0#8] ++
  [0xF0#8, 0x80#8, 0xF0#8, 0x90#8, 0xF0#8, 0xF0#8, 0x10#8, 0x20#8, 0x40#8, 0x40#8] ++
  [0xF0#8, 0x90#8, 0xF0#8, 0x90#8, 0xF0#8, 0xF0#8, 0x90#8, 0xF0#8, 0x10#8, 0xF0#8] ++
  [0xF0#8, 0x90#8, 0xF0#8, 0x90#8, 0x90#8, 0xE0#8, 0x90#8, 0xE0#8, 0x90#8, 0xE0#8] ++
  [0xF0#8, 0x80#8, 0x80#8, 0x80#8, 0xF0#8, 0xE0#8, 0x90#8, 0x90#8, 0x90#8, 0xE0#8] ++
  [0xF0#8, 0x80#8, 0xF0#8, 0x80#8, 0xF0#8, 0xF0#8, 0x80#8, 0xF0#8, 0x80#8, 0x80#8]

/-- What an address reads as that memory does not list, its content at reset: the font at 0x000 to 0x04F, zero
elsewhere (10_state.md R37, 20_memory.md R51; assumption 13). -/
def resetByte (a : Nat) : Byte := fontTable.getD a 0x00#8

/-- The byte at an address. -/
def Memory.read : Memory → Nat → Byte
  | [], a => resetByte a
  | (b, v) :: m, a => if a = b then v else Memory.read m a

/-- Storing a byte: the list stays sorted, and a byte equal to the address's reset content is not listed. -/
def Memory.write : Memory → Nat → Byte → Memory
  | [], a, v => if v = resetByte a then [] else [(a, v)]
  | (b, w) :: m, a, v =>
    if a < b then (if v = resetByte a then (b, w) :: m else (a, v) :: (b, w) :: m)
    else if a = b then (if v = resetByte a then m else (a, v) :: m)
    else (b, w) :: Memory.write m a v

/-- Storing bytes at rising addresses from `a` up (R55). -/
def Memory.writeAll : Memory → Nat → List Byte → Memory
  | m, _, [] => m
  | m, a, v :: vs => Memory.writeAll (Memory.write m a v) (a + 1) vs

/-- The canonical form from address `lo` up: strictly rising addresses inside the memory, no byte equal to its reset
content. -/
def Memory.wfFrom : Nat → Memory → Bool
  | _, [] => true
  | lo, (b, v) :: m => decide (lo ≤ b) && decide (b < Config.memSize) && (v != resetByte b) && Memory.wfFrom (b + 1) m

/-- The canonical form of a memory. -/
def Memory.wf (m : Memory) : Bool := Memory.wfFrom 0 m

end Sys2Proof.Machine
end

