-- ==== Sys2Proof/Machine/State.lean ====
section
/-! DEFINITION. The machine state as plain data, exactly the components of 10_state.md R20 and one field of the
model's own, `draws`; the reasons a step can stop; the three results of a step; the state after reset. -/

namespace Sys2Proof.Machine

/-- The machine state (10_state.md R20). -/
structure State where
  /-- `memory`, R33. -/
  mem : Memory
  /-- `registers` V0 to VF, R21; VF is the last slot and the flag register, R22. -/
  v : Vector Byte 16
  /-- `index_register` I, R27. -/
  i : Word
  /-- `program_counter`, R24. -/
  pc : Word
  /-- `stack`, the 16 slots S[0] to S[15], R29. -/
  stack : Vector Word 16
  /-- The stack pointer SP, the number of slots in use, 0 to 16, R29. -/
  sp : Fin 17
  /-- `delay_timer` DT, R30. -/
  dt : Byte
  /-- `sound_timer` ST, R30. -/
  st : Byte
  /-- `display`, `display[y][x]` is the pixel in row `y` and column `x`, R31. -/
  display : Display
  /-- `keypad`, true is down, R32. -/
  keys : Vector Bool 16
  /-- The MODEL'S OWN field (assumption 1): how many random bytes have been drawn. -/
  draws : Nat
deriving DecidableEq, Repr

/-- The terminal faults (60_exceptions.md R202, R203). All are SAFE: where the source leaves the behaviour undefined the
model gives none. -/
inductive Fault where
  /-- An access at an address of 4096 or more. Raised by the fetch, DRW, LD_B, ST_REGS, LD_REGS. Safe. -/
  | memOutOfBounds
  /-- A call with SP = 16. Raised by CALL. Safe. -/
  | stackOverflow
  /-- A return with SP = 0. Raised by RET. Safe. -/
  | stackUnderflow
  /-- A key number above 15. Raised by SKP, SKNP. Safe. -/
  | keyIndexOutOfRange
deriving DecidableEq, Repr

/-- What the model gives no move to. All are SAFE. -/
inductive Refusal where
  /-- Raised by an arm of `exec` whose instruction has no meaning yet; no arm raises it now. Safe. -/
  | notModelled (mnemonic : String)
  /-- Raised by the host's `set_key` with an index above 15 (60_exceptions.md R211). Safe. -/
  | keyIndexRefused
  /-- Raised by the host's `load` of more than 3584 bytes (20_memory.md R62). Safe. -/
  | programTooLong
  /-- Raised by the host's `load` after the first step (20_memory.md R62). Safe. -/
  | loadAfterStep
  /-- Raised by the host's `step` and `tick` after a fault (60_exceptions.md R203, R216). Safe. -/
  | movedAfterFault
  /-- Raised by the host's `read_display` and `read_sound_timer` after a fault, the model's reading
  (assumption 12) of R203, that the state is not defined and must not be read. Safe. -/
  | readAfterFault
deriving DecidableEq, Repr

/-- The result of one `step` (60_exceptions.md R200), with the state after it where the spec defines one. -/
inductive StepResult where
  /-- `Ok`: the instruction was executed. -/
  | ok (s : State)
  /-- `DecodeError(word)`: the state has the advanced `pc` (R201). -/
  | decodeError (word : Word) (s : State)
  /-- `Fault(kind)`: terminal, no state (R203). -/
  | fault (kind : Fault)
  /-- No result of the spec's: what `exec` refuses. No instruction is refused. -/
  | refused (r : Refusal)
deriving DecidableEq, Repr

/-- The machine right after reset (10_state.md R37). -/
def State.reset : State where
  mem := []
  v := Vector.replicate 16 0x00#8
  i := 0x0000#16
  pc := Config.resetPc
  stack := Vector.replicate 16 0x0000#16
  sp := 0
  dt := 0x00#8
  st := 0x00#8
  display := Vector.replicate 32 (Vector.replicate 64 false)
  keys := Vector.replicate 16 false
  draws := 0

end Sys2Proof.Machine
end

