-- ==== Sys2Proof/Machine/Ops.lean ====
section
/-! DEFINITION. The named operations over registers, memory, stack, display and keypad: the pseudocode primitives of
00_scope.md R8. An operation that the spec can end in a fault answers `Except Fault`. -/

namespace Sys2Proof.Machine

/-! ### Registers -/

/-- `V[x]`. -/
def State.getV (s : State) (x : Reg) : Byte := s.v[x.toNat]'(x.isLt)

/-- `V[x] <- b`. -/
def State.setV (s : State) (x : Reg) (b : Byte) : State := { s with v := s.v.set x.toNat b x.isLt }

/-- `I <- w`. -/
def State.setI (s : State) (w : Word) : State := { s with i := w }

/-- `pc <- w`. -/
def State.setPc (s : State) (w : Word) : State := { s with pc := w }

/-- `DT <- b`. -/
def State.setDt (s : State) (b : Byte) : State := { s with dt := b }

/-- `ST <- b`. -/
def State.setSt (s : State) (b : Byte) : State := { s with st := b }

/-- The fetch's unconditional advance, `pc <- pc + 2` (10_state.md R24); a skip adds the same 2 again (41_skips.md R110). -/
def State.advance (s : State) : State := s.setPc (s.pc + 2#16)

/-- The blocking key wait's rewind, `pc <- pc - 2` (10_state.md R24). -/
def State.rewind (s : State) : State := s.setPc (s.pc - 2#16)

/-! ### Memory -/

/-- `memory <- m`. -/
def State.setMem (s : State) (m : Memory) : State := { s with mem := m }

/-- An access to the `n` bytes from `a` up stays inside the memory; an access to no byte always does (20_memory.md R53).
The addresses are natural numbers and never wrap (00_scope.md R8). -/
def spanInside (a n : Nat) : Bool := n == 0 || decide (a + n ≤ Config.memSize)

/-- `MemRead(a + k, 1)` for `k` in `0..n-1`. -/
def State.readSpan (s : State) (a n : Nat) : Except Fault (List Byte) :=
  if spanInside a n then .ok ((List.range n).map fun k => s.mem.read (a + k)) else .error .memOutOfBounds

/-- `MemWrite(a + k, 1, bs[k])` for every byte of `bs`. -/
def State.writeSpan (s : State) (a : Nat) (bs : List Byte) : Except Fault State :=
  if spanInside a bs.length then .ok (s.setMem (s.mem.writeAll a bs)) else .error .memOutOfBounds

/-- `MemRead(pc, 2)`, the fetch (10_state.md R28 step 1, 20_memory.md R54): big-endian, at any parity of `pc`. -/
def State.fetch (s : State) : Except Fault Word :=
  if s.pc.toNat + 1 < Config.memSize then
    .ok (wordOfBytes (s.mem.read s.pc.toNat) (s.mem.read (s.pc.toNat + 1)))
  else .error .memOutOfBounds

/-! ### Stack -/

/-- `Push(w)` (00_scope.md R8). -/
def State.push (s : State) (w : Word) : Except Fault State :=
  if h : s.sp.val < 16 then
    .ok { s with stack := s.stack.set s.sp.val w h, sp := ⟨s.sp.val + 1, by omega⟩ }
  else .error .stackOverflow

/-- `Pop()` (00_scope.md R8): the popped slot keeps its value (10_state.md R29). -/
def State.pop (s : State) : Except Fault (Word × State) :=
  if s.sp.val = 0 then .error .stackUnderflow
  else
    .ok (s.stack[s.sp.val - 1]'(by omega), { s with sp := ⟨s.sp.val - 1, by omega⟩ })

/-! ### Display -/

/-- `Disp[y][x]`. -/
def Display.pixel (d : Display) (y : Fin 32) (x : Fin 64) : Bool := d[y][x]

/-- `Disp[y][x] <- Disp[y][x] xor 1`. -/
def Display.flip (d : Display) (y : Fin 32) (x : Fin 64) : Display := d.set y (d[y].set x (!Display.pixel d y x))

/-- All pixels off (40_family0_jump_call.md R101). -/
def Display.clear : Display := Vector.replicate 32 (Vector.replicate 64 false)

/-- `Disp <- d`. -/
def State.setDisplay (s : State) (d : Display) : State := { s with display := d }

/-! ### Keypad -/

/-- `Key[k]` for a key number held in a register; above 15 it names no key (46_keys.md R172). -/
def State.testKey (s : State) (k : Byte) : Except Fault Bool :=
  if h : k.toNat < 16 then .ok (s.keys[k.toNat]'h) else .error .keyIndexOutOfRange

/-- The least `k` in `0..15` with `Key[k] = 1` (47_familyF.md R181). -/
def State.leastKey (s : State) : Option (Fin 16) := (List.finRange 16).find? fun k => s.keys[k]

/-! ### The random source -/

/-- `Random8()`: a free byte, a new one at each call (44_index_jumpoffset_random.md R152; assumption 1). -/
def State.drawRandom (s : State) : Byte × State := (Config.randomByte s.draws, { s with draws := s.draws + 1 })

/-! ### The ends of a step

The machine has no trap entry and no trap return (60_exceptions.md R206, R213): a failure is a value given to the caller
of `step`. -/

/-- `raise Fault(k)`: the step ends, terminally, with no state (R203). -/
def raise (k : Fault) : Host.Outcome State Fault Refusal := .fault k

/-- An execute phase that can fault. -/
def finish : Except Fault State → Host.Outcome State Fault Refusal
  | .ok s => .next s
  | .error k => raise k

/-- The state after a decode failure, from the state before the fetch: `pc` keeps the advanced value and nothing else
changes (R201). -/
def State.afterDecodeError (s : State) : State := s.advance

end Sys2Proof.Machine
end

