-- ==== Sys2Proof/Machine/Flags.lean ====
section
/-! DEFINITION. Every flag computation of the machine (10_state.md R23), and the write of VF as a flag. -/

namespace Sys2Proof.Machine

/-- A flag value is exactly 0 or 1 (10_state.md R22). -/
def flagByte (b : Bool) : Byte := if b then 0x01#8 else 0x00#8

/-- `V[F] <- flag`, always the last register write of its instruction (00_scope.md R9, 10_state.md R22). -/
def State.setFlag (s : State) (b : Bool) : State := s.setV vF (flagByte b)

/-- Carry out of an 8-bit unsigned addition (43_alu.md R135). -/
def carryOut (a b : Byte) : Bool := decide (a.toNat + b.toNat > 255)

/-- No borrow in the 8-bit unsigned subtraction `a - b` (43_alu.md R136): true when `a >= b`. -/
def notBorrow (a b : Byte) : Bool := decide (a.toNat ≥ b.toNat)

/-- The bit a right shift by one puts out, bit 0 (43_alu.md R137). -/
def shiftedOutRight (a : Byte) : Bool := a.getLsbD 0

/-- The bit a left shift by one puts out, bit 7 (43_alu.md R139). -/
def shiftedOutLeft (a : Byte) : Bool := a.getLsbD 7

end Sys2Proof.Machine
end

