-- ==== Sys2Proof/Machine/Operands.lean ====
section
/-! DEFINITION. The operand forms of the instructions (30_encoding.md R81, 20_memory.md R63): zero-extended fields and
registers, the block of registers V0 to Vx, decimal digits, and the pixel a sprite bit goes to. -/

namespace Sys2Proof.Machine

/-- `zext_16(addr)`. -/
def addrWord (addr : Addr) : Word := addr.setWidth 16

/-- `zext_16(b)`. -/
def byteWord (b : Byte) : Word := b.setWidth 16

/-- The number of registers in V0 to Vx, `x + 1` (47_familyF.md R187). -/
def blockLength (x : Reg) : Nat := x.toNat + 1

/-- The values of V0 to Vx, in order. -/
def State.blockValues (s : State) (x : Reg) : List Byte :=
  (List.range (blockLength x)).map fun k => s.getV (BitVec.ofNat 4 k)

/-- `V[k] <- bs[0]`, `V[k + 1] <- bs[1]` and so on. -/
def State.setBlock : State → Nat → List Byte → State
  | s, _, [] => s
  | s, k, b :: bs => State.setBlock (s.setV (BitVec.ofNat 4 k) b) (k + 1) bs

/-- The hundreds, tens and ones digits of a byte, each in a byte of its own (47_familyF.md R186). -/
def decimalDigits (b : Byte) : List Byte :=
  [BitVec.ofNat 8 (b.toNat / 100), BitVec.ofNat 8 (b.toNat / 10 % 10), BitVec.ofNat 8 (b.toNat % 10)]

/-- The row of the frame buffer of a sprite's row: `(V[y] + row) mod 32` (45_draw.md R161). -/
def spriteRow (vy : Byte) (row : Nat) : Fin 32 := Fin.ofNat 32 (vy.toNat + row)

/-- The column of the frame buffer of a sprite's column: `(V[x] + col) mod 64` (45_draw.md R161). -/
def spriteColumn (vx : Byte) (col : Nat) : Fin 64 := Fin.ofNat 64 (vx.toNat + col)

/-- The bit of a sprite's byte at a column, bit 7 at column 0 (45_draw.md R160). -/
def spriteBit (b : Byte) (col : Nat) : Bool := b.getLsbD (7 - col)

end Sys2Proof.Machine
end

