-- ==== Sys2Proof/Machine/Alu.lean ====
section
/-! DEFINITION. The arithmetic: families 0x6 and 0x7 (42_immediate.md), family 0x8 (43_alu.md), the random-masked load
(44_index_jumpoffset_random.md R152). Operands are read before any write; VF as a flag is written last (R130). -/

namespace Sys2Proof.Machine

/-- `V[x] <- result`, then `V[F] <- flag` (R130): with `x = F` the flag is what remains. -/
def State.setVThenFlag (s : State) (x : Reg) (result : Byte) (flag : Bool) : State := (s.setV x result).setFlag flag

/-- R120 load immediate: `V[x] <- nn`. -/
def execLdImm (x : Reg) (nn : Byte) (s : State) : Host.Outcome State Fault Refusal := .next (s.setV x nn)

/-- R121 add immediate: modulo 256, no flag. -/
def execAddImm (x : Reg) (nn : Byte) (s : State) : Host.Outcome State Fault Refusal :=
  .next (s.setV x (s.getV x + nn))

/-- R131 copy, no flag. -/
def execLdReg (x y : Reg) (s : State) : Host.Outcome State Fault Refusal := .next (s.setV x (s.getV y))

/-- R132 or, no flag. -/
def execOrReg (x y : Reg) (s : State) : Host.Outcome State Fault Refusal :=
  .next (s.setV x (s.getV x ||| s.getV y))

/-- R133 and, no flag. -/
def execAndReg (x y : Reg) (s : State) : Host.Outcome State Fault Refusal :=
  .next (s.setV x (s.getV x &&& s.getV y))

/-- R134 xor, no flag. -/
def execXorReg (x y : Reg) (s : State) : Host.Outcome State Fault Refusal :=
  .next (s.setV x (s.getV x ^^^ s.getV y))

/-- R135 add registers: VF is the carry out. -/
def execAddReg (x y : Reg) (s : State) : Host.Outcome State Fault Refusal :=
  .next (s.setVThenFlag x (s.getV x + s.getV y) (carryOut (s.getV x) (s.getV y)))

/-- R136 subtract registers: VF is 1 when `V[x] >= V[y]`. -/
def execSub (x y : Reg) (s : State) : Host.Outcome State Fault Refusal :=
  .next (s.setVThenFlag x (s.getV x - s.getV y) (notBorrow (s.getV x) (s.getV y)))

/-- R137 shift right by one, of `V[x]` alone: VF is the old bit 0. -/
def execShr (x : Reg) (s : State) : Host.Outcome State Fault Refusal :=
  .next (s.setVThenFlag x (s.getV x >>> 1) (shiftedOutRight (s.getV x)))

/-- R138 subtract reversed, `V[y] - V[x]` into `V[x]`: VF is 1 when `V[y] >= V[x]`. -/
def execSubn (x y : Reg) (s : State) : Host.Outcome State Fault Refusal :=
  .next (s.setVThenFlag x (s.getV y - s.getV x) (notBorrow (s.getV y) (s.getV x)))

/-- R139 shift left by one, of `V[x]` alone: VF is the old bit 7. -/
def execShl (x : Reg) (s : State) : Host.Outcome State Fault Refusal :=
  .next (s.setVThenFlag x (s.getV x <<< 1) (shiftedOutLeft (s.getV x)))

/-- R152 random-masked load: a free draw and `nn`. -/
def execRnd (x : Reg) (nn : Byte) (s : State) : Host.Outcome State Fault Refusal :=
  .next (s.drawRandom.2.setV x (s.drawRandom.1 &&& nn))

end Sys2Proof.Machine
end

