-- ==== Sys2Proof/Machine/Control.lean ====
section
/-! DEFINITION. Family 0x0, jump, call (40_family0_jump_call.md) and jump with offset (44_index_jumpoffset_random.md
R151). Every meaning runs on the state whose `pc` is already `p + 2` (R100). -/

namespace Sys2Proof.Machine

/-- R101 clear screen: every pixel off, VF not written. -/
def execCls (s : State) : Host.Outcome State Fault Refusal := .next (s.setDisplay Display.clear)

/-- R102 return: `pc <- Pop()`; with SP = 0 `Fault(StackUnderflow)`. -/
def execRet (s : State) : Host.Outcome State Fault Refusal :=
  match s.pop with
  | .ok (w, t) => .next (t.setPc w)
  | .error k => raise k

/-- R103 legacy call: nothing; the address has no effect. -/
def execSys (_addr : Addr) (s : State) : Host.Outcome State Fault Refusal := .next s

/-- R104 jump: `pc <- zext_16(addr)`. -/
def execJp (addr : Addr) (s : State) : Host.Outcome State Fault Refusal := .next (s.setPc (addrWord addr))

/-- R105 call: `Push(pc)`, the address after the call, then the jump; with SP = 16 `Fault(StackOverflow)`. -/
def execCall (addr : Addr) (s : State) : Host.Outcome State Fault Refusal :=
  match s.push s.pc with
  | .ok t => .next (t.setPc (addrWord addr))
  | .error k => raise k

/-- R151 jump with offset: always V0; the 16-bit sum is not reduced modulo 4096. -/
def execJpV0 (addr : Addr) (s : State) : Host.Outcome State Fault Refusal :=
  .next (s.setPc (addrWord addr + byteWord (s.getV 0x0#4)))

end Sys2Proof.Machine
end

