-- ==== Sys2Proof/Machine/Draw.lean ====
section
/-! DEFINITION. Draw sprite (45_draw.md), as the pseudocode of R160 has it: bit by bit, row by row, with the collision
accumulated. -/

namespace Sys2Proof.Machine

/-- The XOR-plot of one pixel: it is inverted, and a pixel that was on is a collision (R160, R162). -/
def plotPixel (acc : Display × Bool) (y : Fin 32) (x : Fin 64) : Display × Bool :=
  (Display.flip acc.1 y x, acc.2 || Display.pixel acc.1 y x)

/-- One bit of a sprite: a 0 bit plots nothing. -/
def plotBit (vx vy : Byte) (row : Nat) (b : Byte) (acc : Display × Bool) (col : Nat) : Display × Bool :=
  if spriteBit b col then plotPixel acc (spriteRow vy row) (spriteColumn vx col) else acc

/-- One row of a sprite: columns 0 to 7. -/
def plotRow (vx vy : Byte) (row : Nat) (b : Byte) (acc : Display × Bool) : Display × Bool :=
  (List.range 8).foldl (plotBit vx vy row b) acc

/-- The rows of a sprite from `row` on. -/
def plotRows (vx vy : Byte) : Nat → List Byte → Display × Bool → Display × Bool
  | _, [], acc => acc
  | row, b :: bs, acc => plotRows vx vy (row + 1) bs (plotRow vx vy row b acc)

/-- R160 draw sprite: `n` bytes from I, all read first, plotted at `(V[x], V[y])`; VF is the collision, written last and
always; with `n >= 1` and `I + n - 1 >= 4096` `Fault(MemOutOfBounds)`. -/
def execDrw (x y : Reg) (n : Nibble) (s : State) : Host.Outcome State Fault Refusal :=
  match s.readSpan s.i.toNat n.toNat with
  | .ok bs =>
    let drawn := plotRows (s.getV x) (s.getV y) 0 bs (s.display, false)
    .next ((s.setDisplay drawn.1).setFlag drawn.2)
  | .error k => raise k

end Sys2Proof.Machine
end

