-- ==== Sys2Proof/Machine/Index.lean ====
section
/-! DEFINITION. The index register and memory: load index (44_index_jumpoffset_random.md R150), add to index, font
lookup, BCD, block store and block load (47_familyF.md R184 to R188). The memory instructions leave I unchanged. -/

namespace Sys2Proof.Machine

/-- R150 load index: `I <- zext_16(addr)`. -/
def execLdI (addr : Addr) (s : State) : Host.Outcome State Fault Refusal := .next (s.setI (addrWord addr))

/-- R184 add to index: modulo 65536, no flag. -/
def execAddI (x : Reg) (s : State) : Host.Outcome State Fault Refusal := .next (s.setI (s.i + byteWord (s.getV x)))

/-- R185 font address lookup: `I <- zext_16(V[x]) * 5`, no mask of `V[x]`. -/
def execLdF (x : Reg) (s : State) : Host.Outcome State Fault Refusal :=
  .next (s.setI (byteWord (s.getV x) * BitVec.ofNat 16 Config.glyphBytes))

/-- R186 BCD: the digits at I, I + 1, I + 2; with `I + 2 >= 4096` `Fault(MemOutOfBounds)`. -/
def execLdB (x : Reg) (s : State) : Host.Outcome State Fault Refusal :=
  finish (s.writeSpan s.i.toNat (decimalDigits (s.getV x)))

/-- R187 block store: V0 to Vx at I upward; with `I + x >= 4096` `Fault(MemOutOfBounds)`. -/
def execStRegs (x : Reg) (s : State) : Host.Outcome State Fault Refusal :=
  finish (s.writeSpan s.i.toNat (s.blockValues x))

/-- R188 block load: V0 to Vx from I upward; with `I + x >= 4096` `Fault(MemOutOfBounds)`. -/
def execLdRegs (x : Reg) (s : State) : Host.Outcome State Fault Refusal :=
  match s.readSpan s.i.toNat (blockLength x) with
  | .ok bs => .next (s.setBlock 0 bs)
  | .error k => raise k

end Sys2Proof.Machine
end

