-- ==== Sys2Proof/Machine/Skips.lean ====
section
/-! DEFINITION. The skips: the conditional skips (41_skips.md) and the key skips (46_keys.md). Skipping is only
`pc <- pc + 2`: the skipped bytes are neither fetched nor decoded (R110). -/

namespace Sys2Proof.Machine

/-- R110: the skip itself. -/
def State.skipIf (s : State) (c : Bool) : State := if c then s.advance else s

/-- R111 skip if `V[x] = nn`. -/
def execSeImm (x : Reg) (nn : Byte) (s : State) : Host.Outcome State Fault Refusal :=
  .next (s.skipIf (s.getV x == nn))

/-- R112 skip if `V[x] != nn`. -/
def execSneImm (x : Reg) (nn : Byte) (s : State) : Host.Outcome State Fault Refusal :=
  .next (s.skipIf (s.getV x != nn))

/-- R113 skip if `V[x] = V[y]`. -/
def execSeReg (x y : Reg) (s : State) : Host.Outcome State Fault Refusal :=
  .next (s.skipIf (s.getV x == s.getV y))

/-- R114 skip if `V[x] != V[y]`. -/
def execSneReg (x y : Reg) (s : State) : Host.Outcome State Fault Refusal :=
  .next (s.skipIf (s.getV x != s.getV y))

/-- R170 skip if the key whose number is the value of `V[x]` is down; above 15 `Fault(KeyIndexOutOfRange)` (R172). -/
def execSkp (x : Reg) (s : State) : Host.Outcome State Fault Refusal :=
  match s.testKey (s.getV x) with
  | .ok down => .next (s.skipIf down)
  | .error k => raise k

/-- R171 skip if the key whose number is the value of `V[x]` is up; above 15 `Fault(KeyIndexOutOfRange)` (R172). -/
def execSknp (x : Reg) (s : State) : Host.Outcome State Fault Refusal :=
  match s.testKey (s.getV x) with
  | .ok down => .next (s.skipIf (!down))
  | .error k => raise k

end Sys2Proof.Machine
end

