-- ==== Sys2Proof/Machine/Timers.lean ====
section
/-! DEFINITION. The timers and the blocking key wait (47_familyF.md R180 to R183). -/

namespace Sys2Proof.Machine

/-- R180 read delay timer: `V[x] <- DT`. -/
def execLdVxDt (x : Reg) (s : State) : Host.Outcome State Fault Refusal := .next (s.setV x s.dt)

/-- R181 blocking key wait: the least key down into `V[x]`; with no key down `pc <- pc - 2`, back to this instruction. -/
def execLdVxK (x : Reg) (s : State) : Host.Outcome State Fault Refusal :=
  match s.leastKey with
  | some k => .next (s.setV x (BitVec.ofNat 8 k.val))
  | none => .next s.rewind

/-- R182 write delay timer: `DT <- V[x]`. -/
def execLdDtVx (x : Reg) (s : State) : Host.Outcome State Fault Refusal := .next (s.setDt (s.getV x))

/-- R183 write sound timer: `ST <- V[x]`. -/
def execLdStVx (x : Reg) (s : State) : Host.Outcome State Fault Refusal := .next (s.setSt (s.getV x))

end Sys2Proof.Machine
end

