-- ==== Sys2Proof/Machine/Cycle.lean ====
section
/-! DEFINITION. One fetch-decode-execute cycle with its result as the spec gives it (10_state.md R28, 60_exceptions.md
R200), and the placing of a word where the next fetch reads it. -/

namespace Sys2Proof.Machine

/-- What the execute phase's end is as a result of the step. -/
def StepResult.ofOutcome : Host.Outcome State Fault Refusal → StepResult
  | .next t => .ok t
  | .fault k => .fault k
  | .refused r => .refused r

/-- The error or status code of a result (60_exceptions.md R202); 0 for a step with nothing to report. -/
def StepResult.code : StepResult → Nat
  | .ok _ => 0
  | .decodeError _ _ => 1
  | .fault .memOutOfBounds => 2
  | .fault .stackOverflow => 3
  | .fault .stackUnderflow => 4
  | .fault .keyIndexOutOfRange => 5
  | .refused _ => 0

/-- `step` as the spec gives it (R28): the fetch's bounds check first, then the decode, then the execute phase on the
state whose `pc` is already advanced (R205). -/
def State.cycle (s : State) : StepResult :=
  match s.fetch with
  | .error k => .fault k
  | .ok op =>
    match decode op with
    | .error _ => .decodeError op s.afterDecodeError
    | .ok i => StepResult.ofOutcome (exec i s.advance)

/-- What a result is as an outcome of the host's interface. A decode failure is a next state, since it is not terminal
and its state is defined (R201; assumption 9); which word failed is in `cycle`'s answer. -/
def StepResult.outcome : StepResult → Host.Outcome State Fault Refusal
  | .ok t => .next t
  | .decodeError _ t => .next t
  | .fault k => .fault k
  | .refused r => .refused r

/-- The state with a word stored where the next fetch reads it, the high byte at `pc` (20_memory.md R54). Where the
memory has no such place (`pc >= 0xFFF`) the state is left as it is. -/
def State.placeWord (s : State) (w : Word) : State :=
  if s.pc.toNat + 1 < Config.memSize then s.setMem (s.mem.writeAll s.pc.toNat [highByte w, lowByte w]) else s

end Sys2Proof.Machine
end

