-- ==== Sys2Proof/Machine/Step.lean ====
section
/-! DEFINITION. One step of the machine, as the host's interface has it. -/

namespace Sys2Proof.Machine

/-- One `step` (10_state.md R28). -/
def step (s : State) : Host.Outcome State Fault Refusal := s.cycle.outcome

/-- The state with the instruction whose bits are `w` (the opcode table numbers one 16-bit word; bits above `nbits` are
0) stored where `step` fetches next. Nothing else has to be set: the machine fetches at `pc` (assumption 15). -/
def State.withFetchWord (s : State) (nbits w : Nat) : State := s.placeWord (BitVec.ofNat 16 (w % 2 ^ nbits))

end Sys2Proof.Machine
end

