-- ==== Sys2Proof/Machine/Block.lean ====
section
/-! DEFINITION. The host's side of the interface (00_scope.md R6, 60_exceptions.md R208 to R212, R216): the seven atomic
operations, on a state and, under the host's contract, on the block. All of them happen between steps. -/

namespace Sys2Proof.Machine

/-! ### The operations on a state -/

/-- A timer on a tick: one less while nonzero, never below zero (60_exceptions.md R209). -/
def countDown (b : Byte) : Byte := if b.toNat > 0 then b - 1#8 else b

/-- `tick`: both timers in one atomic operation, nothing else (60_exceptions.md R209). -/
def State.tick (s : State) : State := (s.setDt (countDown s.dt)).setSt (countDown s.st)

/-- `set_key(k, down)` for a key there is: `Key[k] <- down`, nothing else (60_exceptions.md R211). -/
def State.putKey (s : State) (k : Fin 16) (down : Bool) : State := { s with keys := s.keys.set k down }

/-- `load(bytes)`: the program bytes at 0x200 upward, nothing else (20_memory.md R62). -/
def State.loadImage (s : State) (bytes : List Byte) : State :=
  s.setMem (s.mem.writeAll Config.programOrigin bytes)

/-- `reset` (70_reset_and_hazards.md R230). The random source is not state and is not reseeded (R231(e)): the model's
own draw counter goes on, so that later draws are new ones (assumption 1). -/
def State.resetKeepingDraws (s : State) : State := { State.reset with draws := s.draws }

/-! ### The block under the host's contract -/

/-- The block as the host has it: running, with a note of whether stepping has begun since reset (R216), or with a
recorded fault (R203), after which no state is defined; the draw counter alone outlives the fault. -/
inductive Block where
  | running (s : State) (stepped : Bool)
  | faulted (kind : Fault) (draws : Nat)
deriving DecidableEq, Repr

/-- The operations of the host (00_scope.md R6). -/
inductive HostOp where
  | step
  | tick
  | setKey (k : Nat) (down : Bool)
  | load (bytes : List Byte)
  | reset
  | readDisplay
  | readSoundTimer
deriving DecidableEq, Repr

/-- What an operation gives the host. -/
inductive Reply where
  /-- The operation has no result. -/
  | done
  /-- A step's result `Ok` (R200). -/
  | stepOk
  /-- A step's result `DecodeError(word)` (R201). -/
  | decodeError (word : Word)
  /-- A step's result `Fault(kind)` (R203). -/
  | fault (kind : Fault)
  /-- The snapshot `read_display` returns (R212). -/
  | display (d : Display)
  /-- The value `read_sound_timer` returns (R212). -/
  | sound (b : Byte)
deriving DecidableEq, Repr

/-- A freshly constructed machine: the same as one after reset (10_state.md R37). -/
def Block.fresh : Block := .running State.reset false

/-- The block after a step, with the result the host is given. -/
def Block.afterStep (draws : Nat) : StepResult → Except Refusal (Reply × Block)
  | .ok t => .ok (.stepOk, .running t true)
  | .decodeError w t => .ok (.decodeError w, .running t true)
  | .fault k => .ok (.fault k, .faulted k draws)
  | .refused r => .error r

/-- One operation of the host: what it gives and the block after it, or the refusal of an operation outside the contract
(60_exceptions.md R216, 92_eei_decisions.md D13; assumption 12). -/
def Block.move : Block → HostOp → Except Refusal (Reply × Block)
  | .running s _, .step => Block.afterStep s.draws s.cycle
  | .faulted _ _, .step => .error .movedAfterFault
  | .running s b, .tick => .ok (.done, .running s.tick b)
  | .faulted _ _, .tick => .error .movedAfterFault
  | .running s b, .setKey k down =>
    if h : k < 16 then .ok (.done, .running (s.putKey ⟨k, h⟩ down) b) else .error .keyIndexRefused
  | .faulted f d, .setKey k _ => if k < 16 then .ok (.done, .faulted f d) else .error .keyIndexRefused
  | .running s b, .load bytes =>
    if b then .error .loadAfterStep
    else if bytes.length ≤ Config.maxProgram then .ok (.done, .running (s.loadImage bytes) b)
    else .error .programTooLong
  | .faulted _ _, .load _ => .error .loadAfterStep
  | .running s _, .reset => .ok (.done, .running s.resetKeepingDraws false)
  | .faulted _ d, .reset => .ok (.done, .running { State.reset with draws := d } false)
  | .running s b, .readDisplay => .ok (.display s.display, .running s b)
  | .faulted _ _, .readDisplay => .error .readAfterFault
  | .running s b, .readSoundTimer => .ok (.sound s.st, .running s b)
  | .faulted _ _, .readSoundTimer => .error .readAfterFault

/-- What the host does after a decode failure, the open parameter `ON_DECODE_ERROR` (92_eei_decisions.md D10). -/
inductive OnDecodeError where
  | halt
  | goOn
deriving DecidableEq, Repr

/-- A schedule of operations in any order (60_exceptions.md R210): the replies, and the block after them. Under `halt`
the host issues no further operation after a decode failure. -/
def Block.runWith (p : OnDecodeError) : Block → List HostOp → Except Refusal (List Reply × Block)
  | b, [] => .ok ([], b)
  | b, op :: ops =>
    match b.move op with
    | .error r => .error r
    | .ok (.decodeError w, b') =>
      match p with
      | .halt => .ok ([.decodeError w], b')
      | .goOn =>
        match Block.runWith p b' ops with
        | .error r => .error r
        | .ok (rs, b'') => .ok (.decodeError w :: rs, b'')
    | .ok (r, b') =>
      match Block.runWith p b' ops with
      | .error e => .error e
      | .ok (rs, b'') => .ok (r :: rs, b'')

/-- The schedule of `frames` frames, each `stepsPerTick` steps and one tick (60_exceptions.md R210; the number is the
open parameter `STEPS_PER_TICK`). -/
def frameSchedule (stepsPerTick : Nat) : Nat → List HostOp
  | 0 => []
  | frames + 1 => List.replicate stepsPerTick .step ++ .tick :: frameSchedule stepsPerTick frames

end Sys2Proof.Machine
end

