-- ==== Sys2Proof/Safety.lean ====
section
/-! DEFINITION. What counts as a safe run, and the terms in which claims speak of a step: the parts of a state that an
instruction leaves unchanged, when an instruction faults, the invariants, the end of a run. -/

namespace Sys2Proof.Machine

/-! ### What a step leaves unchanged -/

/-- The parts of a state. -/
inductive Part where
  | regs | mem | i | pc | stack | sp | dt | st | display | keys | draws
deriving DecidableEq, Repr

/-- A part is the same in two states. Registers are compared one by one, memory by what every address reads as, the
stack slot by slot, the display pixel by pixel, the keypad key by key. -/
def SamePart : Part → State → State → Prop
  | .regs, s, t => ∀ x, t.getV x = s.getV x
  | .mem, s, t => ∀ a, t.mem.read a = s.mem.read a
  | .i, s, t => t.i = s.i
  | .pc, s, t => t.pc = s.pc
  | .stack, s, t => ∀ k : Fin 16, t.stack[k] = s.stack[k]
  | .sp, s, t => t.sp = s.sp
  | .dt, s, t => t.dt = s.dt
  | .st, s, t => t.st = s.st
  | .display, s, t => ∀ y x, Display.pixel t.display y x = Display.pixel s.display y x
  | .keys, s, t => ∀ k : Fin 16, t.keys[k] = s.keys[k]
  | .draws, s, t => t.draws = s.draws

/-- Every part but the named ones is the same in `t` as in `s`. -/
def KeepsAllBut (ps : List Part) (s t : State) : Prop := ∀ p, p ∉ ps → SamePart p s t

/-- Every register but the named ones is the same in `t` as in `s`. -/
def KeepsRegsBut (xs : List Reg) (s t : State) : Prop := ∀ x, x ∉ xs → t.getV x = s.getV x

/-- Every byte outside the `n` bytes from `a` up reads the same in `t` as in `s`. -/
def KeepsMemOutside (a n : Nat) (s t : State) : Prop :=
  ∀ b, b < a ∨ a + n ≤ b → t.mem.read b = s.mem.read b

/-- The parts of the state an instruction may write (10_state.md R38; `draws` is the model's own). -/
def writesOf : Instr → List Part
  | .cls => [.display]
  | .ret => [.pc, .sp]
  | .sys _ => []
  | .jp _ => [.pc]
  | .call _ => [.pc, .stack, .sp]
  | .seImm _ _ | .sneImm _ _ | .seReg _ _ | .sneReg _ _ => [.pc]
  | .ldImm _ _ | .addImm _ _ => [.regs]
  | .ldReg _ _ | .orReg _ _ | .andReg _ _ | .xorReg _ _ => [.regs]
  | .addReg _ _ | .sub _ _ | .shr _ | .subn _ _ | .shl _ => [.regs]
  | .ldI _ => [.i]
  | .jpV0 _ => [.pc]
  | .rnd _ _ => [.regs, .draws]
  | .drw _ _ _ => [.regs, .display]
  | .skp _ | .sknp _ => [.pc]
  | .ldVxDt _ => [.regs]
  | .ldVxK _ => [.regs, .pc]
  | .ldDtVx _ => [.dt]
  | .ldStVx _ => [.st]
  | .addI _ | .ldF _ => [.i]
  | .ldB _ | .stRegs _ => [.mem]
  | .ldRegs _ => [.regs]

/-- The sprite of a draw meets the pixel in row `py` and column `px` (45_draw.md R161): some set bit of the `n` bytes at
I goes there, each axis wrapping on its own. -/
def SpriteMask (s : State) (x y : Reg) (n : Nibble) (py : Fin 32) (px : Fin 64) : Prop :=
  ∃ row < n.toNat, ∃ col < 8, (s.mem.read (s.i.toNat + row)).getLsbD (7 - col) = true ∧
    py.val = ((s.getV y).toNat + row) % 32 ∧ px.val = ((s.getV x).toNat + col) % 64

/-! ### When an instruction faults -/

/-- The fault of an instruction's execute phase (60_exceptions.md R202), if it has one. -/
def execFault (i : Instr) (s : State) : Option Fault :=
  match i with
  | .ret => if s.sp.val = 0 then some .stackUnderflow else none
  | .call _ => if s.sp.val = 16 then some .stackOverflow else none
  | .drw _ _ n => if 1 ≤ n.toNat ∧ 4096 ≤ s.i.toNat + n.toNat - 1 then some .memOutOfBounds else none
  | .skp x => if 15 < (s.getV x).toNat then some .keyIndexOutOfRange else none
  | .sknp x => if 15 < (s.getV x).toNat then some .keyIndexOutOfRange else none
  | .ldB _ => if 4096 ≤ s.i.toNat + 2 then some .memOutOfBounds else none
  | .stRegs x => if 4096 ≤ s.i.toNat + x.toNat then some .memOutOfBounds else none
  | .ldRegs x => if 4096 ≤ s.i.toNat + x.toNat then some .memOutOfBounds else none
  | .cls | .sys _ | .jp _ | .seImm _ _ | .sneImm _ _ | .seReg _ _ | .sneReg _ _ | .ldImm _ _ | .addImm _ _ => none
  | .ldReg _ _ | .orReg _ _ | .andReg _ _ | .xorReg _ _ | .addReg _ _ | .sub _ _ | .shr _ | .subn _ _ | .shl _ => none
  | .ldI _ | .jpV0 _ | .rnd _ _ => none
  | .ldVxDt _ | .ldVxK _ | .ldDtVx _ | .ldStVx _ | .addI _ | .ldF _ => none

/-! ### Safe runs -/

/-- A step has gone wrong: it faulted, or, as decision D10 recommends to count it, its word was no instruction. -/
def StepResult.goneWrong : StepResult → Bool
  | .ok _ => false
  | .decodeError _ _ => true
  | .fault _ => true
  | .refused _ => true

/-- The next `n` steps, with no host operation between them, all end in `Ok`. -/
def State.safeFor : Nat → State → Bool
  | 0, _ => true
  | n + 1, s =>
    match s.cycle with
    | .ok t => State.safeFor n t
    | .decodeError _ _ => false
    | .fault _ => false
    | .refused _ => false

/-- The conventional end of a run: the instruction at `pc` jumps to its own address (70_reset_and_hazards.md R241). -/
def State.atSelfJump (s : State) : Prop :=
  s.pc.toNat < 0xFFF ∧ ∃ addr : Addr, s.pc = addr.setWidth 16 ∧
    wordOfBytes (s.mem.read s.pc.toNat) (s.mem.read (s.pc.toNat + 1)) = encode (.jp addr)

/-! ### Invariants -/

/-- The memory is in its canonical form. -/
abbrev State.MemInv (s : State) : Prop := s.mem.wf = true

/-- `pc` is at most 0x10FE and every stack slot at most 0x1000 (10_state.md R26, R29). -/
abbrev State.RangeInv (s : State) : Prop :=
  s.pc.toNat ≤ 0x10FE ∧ ∀ k : Fin 16, s.stack[k].toNat ≤ 0x1000

/-- Both invariants, of a block that has a state. -/
def Block.Inv : Block → Prop
  | .running s _ => s.MemInv ∧ s.RangeInv
  | .faulted _ _ => True

end Sys2Proof.Machine
end

