-- ==== Sys2Proof/Certificates/Slice0/Obligations.lean ====
section
/-! DEFINITION. The statements for the provers. Each docstring names the rules of spec/ it formalises; where a clause rests
on a decision of the spec's own (D1 to D20) or on its general-knowledge items (G1, G2), the docstring names it. The
execute phase `exec` runs on the state whose `pc` is already `p + 2` (40_family0_jump_call.md R100). -/

open Sys2Proof Sys2Proof.Machine

/-! ### Reset -/

/-- 10_state.md R37: what reset leaves. The value of `pc` is decision D1, the font bytes are G2 (assumptions 2, 4). -/
def Obligations.ResetLeavesTheSpecValues : Prop :=
  (∀ x, State.reset.getV x = 0x00#8) ∧ State.reset.i = 0x0000#16 ∧ State.reset.pc = 0x0200#16 ∧
  State.reset.sp.val = 0 ∧ (∀ k : Fin 16, State.reset.stack[k] = 0x0000#16) ∧
  State.reset.dt = 0x00#8 ∧ State.reset.st = 0x00#8 ∧
  (∀ y x, Display.pixel State.reset.display y x = false) ∧ (∀ k : Fin 16, State.reset.keys[k] = false) ∧
  (∀ a, 0x50 ≤ a → State.reset.mem.read a = 0x00#8) ∧
  (∀ d < 16, ∀ r < 5, (State.reset.mem.read (d * 5 + r)).toNat =
    [0xF0909090F0, 0x2060202070, 0xF010F080F0, 0xF010F010F0, 0x9090F01010, 0xF080F010F0, 0xF080F090F0, 0xF010204040,
      0xF090F090F0, 0xF090F010F0, 0xF090F09090, 0xE090E090E0, 0xF0808080F0, 0xE0909090E0, 0xF080F080F0,
      0xF080F08080].getD d 0 / 256 ^ (4 - r) % 256)

/-- The invariants hold at reset: the canonical form of memory, the model's own form (DESIGN CHOICE, assumption 13), and the
range of `pc` and of the stack slots (10_state.md R26, R29, R37). -/
def Obligations.ResetMeetsTheInvariants : Prop := State.reset.MemInv ∧ State.reset.RangeInv

/-- 70_reset_and_hazards.md R230, R231: `reset` of any block, running or faulted, gives a block with no fault recorded and
every component of the spec's as after construction; the model's own draw counter goes on (assumption 1). -/
def Obligations.ResetRestoresEveryComponent : Prop :=
  (∀ (s : State) (stepped : Bool), ∃ t, (Block.running s stepped).move .reset = .ok (.done, .running t false) ∧
    KeepsAllBut [.draws] State.reset t ∧ t.mem = [] ∧ t.draws = s.draws) ∧
  (∀ (k : Fault) (draws : Nat), ∃ t, (Block.faulted k draws).move .reset = .ok (.done, .running t false) ∧
    KeepsAllBut [.draws] State.reset t ∧ t.mem = [] ∧ t.draws = draws)

/-! ### The Decoder -/

/-- Words written out from the patterns of 30_encoding.md R74 decode to the instruction they stand for (G1, D6). -/
def Obligations.SampleWordsDecode : Prop :=
  decode 0b0000000011100000#16 = .ok .cls ∧ decode 0b0000000011101110#16 = .ok .ret ∧
  decode 0b0001101010111100#16 = .ok (.jp 0xABC#12) ∧ decode 0b0011101001111111#16 = .ok (.seImm 0xA#4 0x7F#8) ∧
  decode 0b0101000100100111#16 = .ok (.seReg 0x1#4 0x2#4) ∧ decode 0b1000000100100111#16 = .ok (.subn 0x1#4 0x2#4) ∧
  decode 0b1000000100101110#16 = .ok (.shl 0x1#4) ∧ decode 0b1101000100100101#16 = .ok (.drw 0x1#4 0x2#4 0x5#4) ∧
  decode 0b1110000110100001#16 = .ok (.sknp 0x1#4) ∧ decode 0b1111111101100101#16 = .ok (.ldRegs 0xF#4) ∧
  decode 0b1110000000000000#16 = .error (.unknownWord 0xE000#16) ∧
  decode 0b1111000011111111#16 = .error (.unknownWord 0xF0FF#16)

/-- 30_encoding.md R72, R74, R83: decoding the word of a well-formed instruction gives it back, every operand at every
value (the sub-discriminant values are G1, the whole-word match of family 0x0 is D6). -/
def Obligations.DecodeOfEncodeIsTheInstruction : Prop :=
  ∀ i : Instr, i.wellFormed = true → decode (encode i) = .ok i

/-- 30_encoding.md R79, R86: what a word decodes to is well-formed, and its word is the decoded word on the bits the form
uses, with 0 in the ignored bits. -/
def Obligations.EncodeOfDecodeKeepsTheUsedBits : Prop :=
  ∀ (w : Word) (i : Instr), decode w = .ok i → i.wellFormed = true ∧ encode i = w &&& usedBits i

/-- 30_encoding.md R74: the decode algorithm is the opcode map. A word that decodes matches its instruction's row, the
legacy call's row without 0x00E0 and 0x00EE; a word that matches a row decodes to an instruction of that row (G1, D6). -/
def Obligations.DecodeFollowsTheOpcodeMap : Prop :=
  (∀ (w : Word) (i : Instr), decode w = .ok i →
    w &&& (opcodeRow i).1 = (opcodeRow i).2 ∧ ((∃ a, i = .sys a) → w ≠ 0x00E0#16 ∧ w ≠ 0x00EE#16)) ∧
  (∀ (w : Word) (j : Instr), w &&& (opcodeRow j).1 = (opcodeRow j).2 →
    ((∃ a, j = .sys a) → w ≠ 0x00E0#16 ∧ w ≠ 0x00EE#16) → ∃ i, decode w = .ok i ∧ opcodeRow i = opcodeRow j)

/-- 30_encoding.md R80: the illegal words, exactly, and the offending word is what the failure carries (G1). -/
def Obligations.IllegalWordsAreExactlyThoseListed : Prop :=
  ∀ w : Word,
    ((∃ e, decode w = .error e) ↔
      (w.toNat / 4096 = 0x8 ∧ w.toNat % 16 ∈ [0x8, 0x9, 0xA, 0xB, 0xC, 0xD, 0xF]) ∨
      (w.toNat / 4096 = 0xE ∧ w.toNat % 256 ∉ [0x9E, 0xA1]) ∨
      (w.toNat / 4096 = 0xF ∧
        w.toNat % 256 ∉ [0x07, 0x0A, 0x15, 0x18, 0x1E, 0x29, 0x33, 0x55, 0x65])) ∧
    (∀ e, decode w = .error e → e = .unknownWord w)

/-- 30_encoding.md R77 to R79: two words that differ only in ignored bits are the same instruction, and the address of a
legacy call has no effect. -/
def Obligations.IgnoredBitsMakeNoDifference : Prop :=
  (∀ (w w' : Word) (i : Instr), decode w = .ok i → w' &&& usedBits i = w &&& usedBits i → decode w' = .ok i) ∧
  (∀ (a a' : Addr) (s : State), exec (.sys a) s = exec (.sys a') s)

/-! ### One step -/

/-- 10_state.md R28, R24, 20_memory.md R54: when the big-endian word at `pc` decodes to an instruction, a step is its
execute phase on the state with `pc` advanced by 2 (with no wrap), and the result is `Ok` or the fault of that phase. -/
def Obligations.StepRunsTheDecodedInstruction : Prop :=
  ∀ (s : State) (w : Word) (i : Instr), s.pc.toNat + 1 < 4096 →
    w.toNat = (s.mem.read s.pc.toNat).toNat * 256 + (s.mem.read (s.pc.toNat + 1)).toNat →
    decode w = .ok i →
    i.wellFormed = true ∧ step s = exec i (s.setPc (s.pc + 2#16)) ∧ (s.pc + 2#16).toNat = s.pc.toNat + 2 ∧
    (∀ t, exec i (s.setPc (s.pc + 2#16)) = .next t → s.cycle = .ok t) ∧
    (∀ k, exec i (s.setPc (s.pc + 2#16)) = .fault k → s.cycle = .fault k)

/-- 10_state.md R26, 60_exceptions.md R205: a fetch that would read an address of 4096 or more faults, whatever the state
holds (decision D2). -/
def Obligations.FetchBeyondMemoryFaults : Prop :=
  ∀ s : State, 0xFFF ≤ s.pc.toNat → step s = .fault .memOutOfBounds ∧ s.cycle = .fault .memOutOfBounds

/-- 60_exceptions.md R201: an illegal word leaves `pc` advanced by 2 and changes nothing else; the result carries the
word; the state after it is a next state, from which the host may step again (90_conflicts.md C1). -/
def Obligations.DecodeFailureOnlyAdvancesPc : Prop :=
  ∀ (s : State) (w : Word) (e : DecodeError), s.pc.toNat + 1 < 4096 →
    w.toNat = (s.mem.read s.pc.toNat).toNat * 256 + (s.mem.read (s.pc.toNat + 1)).toNat →
    decode w = .error e →
    ∃ t, s.cycle = .decodeError w t ∧ step s = .next t ∧ t.pc.toNat = s.pc.toNat + 2 ∧ KeepsAllBut [.pc] s t

/-! ### Family 0x0, jump, call -/

/-- 40_family0_jump_call.md R101: clear screen turns every pixel off and changes nothing else, VF among the rest. -/
def Obligations.ClsTurnsEveryPixelOff : Prop :=
  ∀ s : State, ∃ t, exec .cls s = .next t ∧ (∀ y x, Display.pixel t.display y x = false) ∧ KeepsAllBut [.display] s t

/-- 40_family0_jump_call.md R102: return pops `pc`; with an empty stack it faults (decision D3). The popped slot keeps its
value (decision D11). -/
def Obligations.RetPopsTheProgramCounter : Prop :=
  (∀ (s : State) (k : Fin 16), s.sp.val = k.val + 1 →
    ∃ t, exec .ret s = .next t ∧ t.pc = s.stack[k] ∧ t.sp.val = k.val ∧ KeepsAllBut [.pc, .sp] s t) ∧
  (∀ s : State, s.sp.val = 0 → exec .ret s = .fault .stackUnderflow)

/-- 40_family0_jump_call.md R103: the legacy call changes nothing, whatever its address. -/
def Obligations.SysChangesNothing : Prop :=
  ∀ (s : State) (addr : Addr), ∃ t, exec (.sys addr) s = .next t ∧ KeepsAllBut [] s t

/-- 40_family0_jump_call.md R104: jump installs its address, any of them, and changes nothing else. -/
def Obligations.JpInstallsItsAddress : Prop :=
  ∀ (s : State) (addr : Addr), decode (BitVec.ofNat 16 (0x1000 + addr.toNat)) = .ok (.jp addr) ∧
    ∃ t, exec (.jp addr) s = .next t ∧ t.pc.toNat = addr.toNat ∧ KeepsAllBut [.pc] s t

/-- 40_family0_jump_call.md R105: call pushes `pc`, which is already past the call, and jumps; with a full stack it faults
(decision D3). -/
def Obligations.CallPushesAndJumps : Prop :=
  (∀ (s : State) (addr : Addr) (k : Fin 16), s.sp.val = k.val →
    ∃ t, exec (.call addr) s = .next t ∧ t.pc.toNat = addr.toNat ∧ t.sp.val = k.val + 1 ∧ t.stack[k] = s.pc ∧
      (∀ j : Fin 16, j ≠ k → t.stack[j] = s.stack[j]) ∧ KeepsAllBut [.pc, .sp, .stack] s t) ∧
  (∀ (s : State) (addr : Addr), s.sp.val = 16 → exec (.call addr) s = .fault .stackOverflow)

/-- R102 and R105 together: a return undoes a call, whatever the address called (derived). -/
def Obligations.ReturnUndoesCall : Prop :=
  ∀ (s : State) (addr : Addr) (p : Word), s.sp.val < 16 →
    ∃ t u, exec (.call addr) s = .next t ∧ exec .ret (t.setPc p) = .next u ∧ KeepsAllBut [.stack] s u ∧
      ∀ j : Fin 16, j.val ≠ s.sp.val → u.stack[j] = s.stack[j]

/-- 44_index_jumpoffset_random.md R151: jump with offset adds V0, whatever register the address's high nibble might name;
the sum is not reduced modulo 4096. -/
def Obligations.JpV0AddsVZero : Prop :=
  ∀ (s : State) (addr : Addr), ∃ t, exec (.jpV0 addr) s = .next t ∧
    t.pc.toNat = addr.toNat + (s.getV 0x0#4).toNat ∧ KeepsAllBut [.pc] s t

/-! ### Skips -/

/-- 41_skips.md R111, R112: the immediate skips, their words, and that they change `pc` alone. -/
def Obligations.ImmediateSkipsCompareAndAdvance : Prop :=
  (∀ (x : Reg) (nn : Byte),
    decode (BitVec.ofNat 16 (0x3000 + x.toNat * 256 + nn.toNat)) = .ok (.seImm x nn) ∧
    decode (BitVec.ofNat 16 (0x4000 + x.toNat * 256 + nn.toNat)) = .ok (.sneImm x nn)) ∧
  (∀ (s : State) (x : Reg) (nn : Byte), ∃ t, exec (.seImm x nn) s = .next t ∧
    t.pc = (if (s.getV x).toNat = nn.toNat then s.pc + 2#16 else s.pc) ∧ KeepsAllBut [.pc] s t) ∧
  (∀ (s : State) (x : Reg) (nn : Byte), ∃ t, exec (.sneImm x nn) s = .next t ∧
    t.pc = (if (s.getV x).toNat ≠ nn.toNat then s.pc + 2#16 else s.pc) ∧ KeepsAllBut [.pc] s t)

/-- 41_skips.md R113, R114: the register skips, their words with any low nibble, and that they change `pc` alone. -/
def Obligations.RegisterSkipsCompareAndAdvance : Prop :=
  (∀ x y n : BitVec 4,
    decode (BitVec.ofNat 16 (0x5000 + x.toNat * 256 + y.toNat * 16 + n.toNat)) = .ok (.seReg x y) ∧
    decode (BitVec.ofNat 16 (0x9000 + x.toNat * 256 + y.toNat * 16 + n.toNat)) = .ok (.sneReg x y)) ∧
  (∀ (s : State) (x y : Reg), ∃ t, exec (.seReg x y) s = .next t ∧
    t.pc = (if (s.getV x).toNat = (s.getV y).toNat then s.pc + 2#16 else s.pc) ∧ KeepsAllBut [.pc] s t) ∧
  (∀ (s : State) (x y : Reg), ∃ t, exec (.sneReg x y) s = .next t ∧
    t.pc = (if (s.getV x).toNat ≠ (s.getV y).toNat then s.pc + 2#16 else s.pc) ∧ KeepsAllBut [.pc] s t)

/-- 46_keys.md R170, R171: the key skips test the key whose number is the register's value, and change `pc` alone; above 15
they fault (R172, decision D4). -/
def Obligations.KeySkipsTestTheKeyNamedByTheValue : Prop :=
  (∀ (s : State) (x : Reg) (k : Fin 16), (s.getV x).toNat = k.val →
    (∃ t, exec (.skp x) s = .next t ∧ t.pc = (if s.keys[k] = true then s.pc + 2#16 else s.pc) ∧
      KeepsAllBut [.pc] s t) ∧
    (∃ t, exec (.sknp x) s = .next t ∧ t.pc = (if s.keys[k] = false then s.pc + 2#16 else s.pc) ∧
      KeepsAllBut [.pc] s t)) ∧
  (∀ (s : State) (x : Reg), 16 ≤ (s.getV x).toNat →
    exec (.skp x) s = .fault .keyIndexOutOfRange ∧ exec (.sknp x) s = .fault .keyIndexOutOfRange)

/-! ### Immediates and the register ALU -/

/-- 42_immediate.md R120: load immediate, VF like any register. -/
def Obligations.LdImmLoadsTheImmediate : Prop :=
  ∀ (s : State) (x : Reg) (nn : Byte),
    decode (BitVec.ofNat 16 (0x6000 + x.toNat * 256 + nn.toNat)) = .ok (.ldImm x nn) ∧
    ∃ t, exec (.ldImm x nn) s = .next t ∧ t.getV x = nn ∧ KeepsRegsBut [x] s t ∧ KeepsAllBut [.regs] s t

/-- 42_immediate.md R121: add immediate wraps modulo 256 and writes no flag. -/
def Obligations.AddImmWrapsWithoutFlag : Prop :=
  ∀ (s : State) (x : Reg) (nn : Byte),
    decode (BitVec.ofNat 16 (0x7000 + x.toNat * 256 + nn.toNat)) = .ok (.addImm x nn) ∧
    ∃ t, exec (.addImm x nn) s = .next t ∧ (t.getV x).toNat = ((s.getV x).toNat + nn.toNat) % 256 ∧
      KeepsRegsBut [x] s t ∧ KeepsAllBut [.regs] s t

/-- 43_alu.md R131 to R134: copy, or, and, xor, bit by bit, with no flag effect. -/
def Obligations.CopyAndLogicWriteNoFlag : Prop :=
  ∀ (s : State) (x y : Reg),
    (∃ t, exec (.ldReg x y) s = .next t ∧ t.getV x = s.getV y ∧ KeepsRegsBut [x] s t ∧ KeepsAllBut [.regs] s t) ∧
    (∃ t, exec (.orReg x y) s = .next t ∧
      (∀ k < 8, (t.getV x).getLsbD k = ((s.getV x).getLsbD k || (s.getV y).getLsbD k)) ∧
      KeepsRegsBut [x] s t ∧ KeepsAllBut [.regs] s t) ∧
    (∃ t, exec (.andReg x y) s = .next t ∧
      (∀ k < 8, (t.getV x).getLsbD k = ((s.getV x).getLsbD k && (s.getV y).getLsbD k)) ∧
      KeepsRegsBut [x] s t ∧ KeepsAllBut [.regs] s t) ∧
    (∃ t, exec (.xorReg x y) s = .next t ∧
      (∀ k < 8, (t.getV x).getLsbD k = ((s.getV x).getLsbD k ^^ (s.getV y).getLsbD k)) ∧
      KeepsRegsBut [x] s t ∧ KeepsAllBut [.regs] s t)

/-- 43_alu.md R135: add registers, VF the carry out, written last: with `x = F` the flag is what remains. -/
def Obligations.AddRegCarriesIntoVF : Prop :=
  ∀ (s : State) (x y : Reg), ∃ t, exec (.addReg x y) s = .next t ∧
    (x ≠ vF → (t.getV x).toNat = ((s.getV x).toNat + (s.getV y).toNat) % 256) ∧
    (t.getV vF).toNat = (if (s.getV x).toNat + (s.getV y).toNat > 255 then 1 else 0) ∧
    KeepsRegsBut [x, vF] s t ∧ KeepsAllBut [.regs] s t

/-- 43_alu.md R136: subtract registers, VF 1 when there is no borrow, written last. -/
def Obligations.SubFlagsNoBorrow : Prop :=
  ∀ (s : State) (x y : Reg), ∃ t, exec (.sub x y) s = .next t ∧
    (x ≠ vF → ((t.getV x).toNat : Int) = ((s.getV x).toNat - (s.getV y).toNat : Int) % 256) ∧
    (t.getV vF).toNat = (if (s.getV x).toNat ≥ (s.getV y).toNat then 1 else 0) ∧
    KeepsRegsBut [x, vF] s t ∧ KeepsAllBut [.regs] s t

/-- 43_alu.md R138: subtract reversed, `V[y] - V[x]` into `V[x]`, VF 1 when there is no borrow, written last. -/
def Obligations.SubnFlagsNoBorrow : Prop :=
  ∀ (s : State) (x y : Reg), ∃ t, exec (.subn x y) s = .next t ∧
    (x ≠ vF → ((t.getV x).toNat : Int) = ((s.getV y).toNat - (s.getV x).toNat : Int) % 256) ∧
    (t.getV vF).toNat = (if (s.getV y).toNat ≥ (s.getV x).toNat then 1 else 0) ∧
    KeepsRegsBut [x, vF] s t ∧ KeepsAllBut [.regs] s t

/-- 43_alu.md R137: shift right by one of `V[x]` alone, VF the old bit 0, written last. -/
def Obligations.ShrShiftsOutBitZero : Prop :=
  ∀ (s : State) (x : Reg), ∃ t, exec (.shr x) s = .next t ∧
    (x ≠ vF → (t.getV x).toNat = (s.getV x).toNat / 2) ∧ (t.getV vF).toNat = (s.getV x).toNat % 2 ∧
    KeepsRegsBut [x, vF] s t ∧ KeepsAllBut [.regs] s t

/-- 43_alu.md R139: shift left by one of `V[x]` alone, VF the old bit 7, written last. -/
def Obligations.ShlShiftsOutBitSeven : Prop :=
  ∀ (s : State) (x : Reg), ∃ t, exec (.shl x) s = .next t ∧
    (x ≠ vF → (t.getV x).toNat = (s.getV x).toNat * 2 % 256) ∧ (t.getV vF).toNat = (s.getV x).toNat / 128 ∧
    KeepsRegsBut [x, vF] s t ∧ KeepsAllBut [.regs] s t

/-- 10_state.md R22: after a flag-writing instruction VF is exactly 0 or 1, whatever it held and whether or not it was
the destination. -/
def Obligations.FlagWritersLeaveVFZeroOrOne : Prop :=
  ∀ (s t : State) (x y : Reg) (n : Nibble) (i : Instr),
    i ∈ [Instr.addReg x y, .sub x y, .shr x, .subn x y, .shl x, .drw x y n] → exec i s = .next t →
    t.getV vF = 0x00#8 ∨ t.getV vF = 0x01#8

/-- 44_index_jumpoffset_random.md R152: the random-masked load takes the next free draw and masks it, for every draw; the
draw after it is another one (decision D8, assumption 1). -/
def Obligations.RndMasksAFreeDraw : Prop :=
  ∀ (s : State) (x : Reg) (nn : Byte), ∃ t, exec (.rnd x nn) s = .next t ∧
    t.getV x = Config.randomByte s.draws &&& nn ∧ t.getV x &&& ~~~nn = 0x00#8 ∧ t.draws = s.draws + 1 ∧
    KeepsRegsBut [x] s t ∧ KeepsAllBut [.regs, .draws] s t

/-! ### Draw -/

/-- 45_draw.md R160, R161, R162: a draw whose bytes lie in the memory XORs the wrapped mask of the sprite into the frame
buffer, sets VF exactly when the mask met a pixel that was on, and changes nothing else; one whose bytes do not faults
(decision D2). -/
def Obligations.DrwXorsTheWrappedSprite : Prop :=
  (∀ (s : State) (x y : Reg) (n : Nibble), n.toNat = 0 ∨ s.i.toNat + n.toNat ≤ 4096 →
    ∃ t, exec (.drw x y n) s = .next t ∧
      (∀ py px, Display.pixel t.display py px = true ↔
        ¬(Display.pixel s.display py px = true ↔ SpriteMask s x y n py px)) ∧
      (t.getV vF = 0x01#8 ↔ ∃ py px, SpriteMask s x y n py px ∧ Display.pixel s.display py px = true) ∧
      (t.getV vF = 0x00#8 ↔ ¬∃ py px, SpriteMask s x y n py px ∧ Display.pixel s.display py px = true) ∧
      KeepsRegsBut [vF] s t ∧ KeepsAllBut [.regs, .display] s t) ∧
  (∀ (s : State) (x y : Reg) (n : Nibble), n.toNat ≠ 0 → 4096 < s.i.toNat + n.toNat →
    exec (.drw x y n) s = .fault .memOutOfBounds)

/-- 45_draw.md R162: drawing the same sprite twice at the same place restores the frame buffer; from a clear display the
first draw sets VF to 0 and the second to 1 when the sprite has a set bit. VF is neither coordinate here, since the first
draw overwrites it and the place would not be the same. -/
def Obligations.DrawingTwiceRestoresTheDisplay : Prop :=
  ∀ (s : State) (x y : Reg) (n : Nibble), x ≠ vF → y ≠ vF → n.toNat = 0 ∨ s.i.toNat + n.toNat ≤ 4096 →
    ∃ t u, exec (.drw x y n) s = .next t ∧ exec (.drw x y n) t = .next u ∧ KeepsAllBut [.regs] s u ∧
      ((∀ py px, Display.pixel s.display py px = false) → t.getV vF = 0x00#8 ∧
        (u.getV vF = 0x01#8 ↔ ∃ py px, SpriteMask s x y n py px))

/-! ### Timers and keys -/

/-- 47_familyF.md R180, R182, R183: the reads and writes of the timers. -/
def Obligations.TimerInstructionsMoveTheTimers : Prop :=
  ∀ (s : State) (x : Reg),
    (∃ t, exec (.ldVxDt x) s = .next t ∧ t.getV x = s.dt ∧ KeepsRegsBut [x] s t ∧ KeepsAllBut [.regs] s t) ∧
    (∃ t, exec (.ldDtVx x) s = .next t ∧ t.dt = s.getV x ∧ KeepsAllBut [.dt] s t) ∧
    (∃ t, exec (.ldStVx x) s = .next t ∧ t.st = s.getV x ∧ KeepsAllBut [.st] s t)

/-- 47_familyF.md R181: the key wait takes the least key down, or goes back to itself. -/
def Obligations.KeyWaitTakesTheLeastKeyOrRewinds : Prop :=
  (∀ (s : State) (x : Reg) (k : Fin 16), s.keys[k] = true → (∀ j : Fin 16, j < k → s.keys[j] = false) →
    ∃ t, exec (.ldVxK x) s = .next t ∧ (t.getV x).toNat = k.val ∧ KeepsRegsBut [x] s t ∧ KeepsAllBut [.regs] s t) ∧
  (∀ (s : State) (x : Reg), (∀ k : Fin 16, s.keys[k] = false) →
    ∃ t, exec (.ldVxK x) s = .next t ∧ t.pc = s.pc - 2#16 ∧ KeepsAllBut [.pc] s t)

/-- 47_familyF.md R181: a step of the key wait with no key down leaves the whole state as it was. -/
def Obligations.KeyWaitStepWithNoKeyChangesNothing : Prop :=
  ∀ (s : State) (x : Reg), s.pc.toNat + 1 < 4096 →
    (s.mem.read s.pc.toNat).toNat = 0xF0 + x.toNat → (s.mem.read (s.pc.toNat + 1)).toNat = 0x0A →
    (∀ k : Fin 16, s.keys[k] = false) → step s = .next s

/-! ### The index register and memory -/

/-- 44_index_jumpoffset_random.md R150: load index, the upper four bits of I becoming 0. -/
def Obligations.LdILoadsTheAddress : Prop :=
  ∀ (s : State) (addr : Addr), decode (BitVec.ofNat 16 (0xA000 + addr.toNat)) = .ok (.ldI addr) ∧
    ∃ t, exec (.ldI addr) s = .next t ∧ t.i.toNat = addr.toNat ∧ KeepsAllBut [.i] s t

/-- 47_familyF.md R184, R185: add to index wraps modulo 65536 with no flag; font lookup multiplies by 5 with no mask. -/
def Obligations.IndexArithmeticWritesIAlone : Prop :=
  ∀ (s : State) (x : Reg),
    (∃ t, exec (.addI x) s = .next t ∧ t.i.toNat = (s.i.toNat + (s.getV x).toNat) % 65536 ∧ KeepsAllBut [.i] s t) ∧
    (∃ t, exec (.ldF x) s = .next t ∧ t.i.toNat = (s.getV x).toNat * 5 ∧ KeepsAllBut [.i] s t)

/-- 47_familyF.md R186: BCD stores the three digits at I, leaves every other byte and I as they were (decision D7), and
faults when they do not lie in the memory (decision D2). -/
def Obligations.BcdStoresTheThreeDigits : Prop :=
  (∀ (s : State) (x : Reg), s.MemInv → s.i.toNat + 2 < 4096 →
    ∃ t, exec (.ldB x) s = .next t ∧
      (t.mem.read s.i.toNat).toNat = (s.getV x).toNat / 100 ∧
      (t.mem.read (s.i.toNat + 1)).toNat = (s.getV x).toNat / 10 % 10 ∧
      (t.mem.read (s.i.toNat + 2)).toNat = (s.getV x).toNat % 10 ∧
      KeepsMemOutside s.i.toNat 3 s t ∧ KeepsAllBut [.mem] s t) ∧
  (∀ (s : State) (x : Reg), 4096 ≤ s.i.toNat + 2 → exec (.ldB x) s = .fault .memOutOfBounds)

/-- 47_familyF.md R187: block store stores V0 to Vx at I, leaves every other byte and I as they were (decision D7), and
faults when they do not lie in the memory (decision D2). -/
def Obligations.BlockStoreStoresVZeroToVx : Prop :=
  (∀ (s : State) (x : Reg), s.MemInv → s.i.toNat + x.toNat < 4096 →
    ∃ t, exec (.stRegs x) s = .next t ∧
      (∀ k : Reg, k.toNat ≤ x.toNat → t.mem.read (s.i.toNat + k.toNat) = s.getV k) ∧
      KeepsMemOutside s.i.toNat (x.toNat + 1) s t ∧ KeepsAllBut [.mem] s t) ∧
  (∀ (s : State) (x : Reg), 4096 ≤ s.i.toNat + x.toNat → exec (.stRegs x) s = .fault .memOutOfBounds)

/-- 47_familyF.md R188: block load loads V0 to Vx from I, keeps the registers above Vx and I (decision D7), and faults when
the bytes do not lie in the memory (decision D2). -/
def Obligations.BlockLoadLoadsVZeroToVx : Prop :=
  (∀ (s : State) (x : Reg), s.i.toNat + x.toNat < 4096 →
    ∃ t, exec (.ldRegs x) s = .next t ∧
      (∀ k : Reg, k.toNat ≤ x.toNat → t.getV k = s.mem.read (s.i.toNat + k.toNat)) ∧
      (∀ k : Reg, x.toNat < k.toNat → t.getV k = s.getV k) ∧ KeepsAllBut [.regs] s t) ∧
  (∀ (s : State) (x : Reg), 4096 ≤ s.i.toNat + x.toNat → exec (.ldRegs x) s = .fault .memOutOfBounds)

/-- 47_familyF.md R188: a block load after a block store with the same I and `x` restores the registers exactly, whatever
they held in between. -/
def Obligations.BlockLoadUndoesBlockStore : Prop :=
  ∀ (s t s' : State) (x : Reg), s.MemInv → exec (.stRegs x) s = .next t → KeepsAllBut [.regs, .pc] t s' →
    ∃ u, exec (.ldRegs x) s' = .next u ∧ (∀ k : Reg, k.toNat ≤ x.toNat → u.getV k = s.getV k) ∧
      (∀ k : Reg, x.toNat < k.toNat → u.getV k = s'.getV k)

/-- 20_memory.md R61: registers stored over the bytes of the next instruction are what the next fetch reads. -/
def Obligations.StoredBytesAreFetchedNext : Prop :=
  ∀ (s : State) (x : Reg), s.MemInv → s.i.toNat + x.toNat < 4096 → s.i.toNat ≤ s.pc.toNat →
    s.pc.toNat + 1 ≤ s.i.toNat + x.toNat →
    ∃ t w, exec (.stRegs x) s = .next t ∧ t.fetch = .ok w ∧
      w.toNat = (s.getV (BitVec.ofNat 4 (s.pc.toNat - s.i.toNat))).toNat * 256 +
        (s.getV (BitVec.ofNat 4 (s.pc.toNat + 1 - s.i.toNat))).toNat

/-! ### The whole machine -/

/-- 60_exceptions.md R202: every instruction faults exactly where the table says, with the fault it says, and answers a
next state everywhere else (decisions D2, D3, D4). -/
def Obligations.FaultsAreExactlyThoseListed : Prop :=
  ∀ (i : Instr) (s : State),
    (∀ k, exec i s = .fault k ↔ execFault i s = some k) ∧ (execFault i s = none → ∃ t, exec i s = .next t)

/-- No instruction and no step is refused (60_exceptions.md R200: a step ends in exactly one of its three results). -/
def Obligations.NothingIsRefused : Prop :=
  (∀ (i : Instr) (s : State) (r : Refusal), exec i s ≠ .refused r) ∧ (∀ (s : State) (r : Refusal), step s ≠ .refused r)

/-- 10_state.md R38: every instruction leaves unchanged every part of the state that the table does not let it write; so
none writes the keypad (R32), and only Fx15 and Fx18 write a timer (R30). -/
def Obligations.InstructionsWriteOnlyWhatTheTableSays : Prop :=
  ∀ (i : Instr) (s t : State), exec i s = .next t → KeepsAllBut (writesOf i) s t ∧ t.keys = s.keys

/-- Every step keeps the memory in its canonical form, the model's own form (DESIGN CHOICE, assumption 13). -/
def Obligations.StepKeepsTheMemoryCanonical : Prop :=
  ∀ s t : State, s.MemInv → step s = .next t → t.MemInv

/-- 10_state.md R26, R29: every step keeps `pc` at most 0x10FE and every stack slot at most 0x1000. -/
def Obligations.StepKeepsPcAndStackInRange : Prop :=
  ∀ s t : State, s.RangeInv → step s = .next t → t.RangeInv

/-- Every operation of the host (00_scope.md R6) keeps both invariants: the canonical form of memory, which is the model's
own form and no rule of the spec's (DESIGN CHOICE, assumption 13), and the range of `pc` and of the stack slots
(10_state.md R26, R29). -/
def Obligations.HostOperationsKeepTheInvariants : Prop :=
  ∀ (b b' : Block) (op : HostOp) (r : Reply), b.Inv → b.move op = .ok (r, b') → b'.Inv

/-- 10_state.md R30, 60_exceptions.md R208: the sound timer is read by no instruction. Two states that differ in it alone
step alike, and the states after differ in it alone. -/
def Obligations.SoundTimerIsReadByNoInstruction : Prop :=
  ∀ (s : State) (b : Byte),
    (∀ k, step s = .fault k → step (s.setSt b) = .fault k) ∧
    (∀ t, step s = .next t → ∃ u, step (s.setSt b) = .next u ∧ KeepsAllBut [.st] t u)

/-- 10_state.md R29: what a slot of the stack not in use holds, nothing can observe (decision D11). -/
def Obligations.UnusedStackSlotsAreNeverSeen : Prop :=
  ∀ (s : State) (st : Vector Word 16), (∀ k : Fin 16, k.val < s.sp.val → st[k] = s.stack[k]) →
    (∀ k, step s = .fault k → step { s with stack := st } = .fault k) ∧
    (∀ t, step s = .next t → ∃ u, step { s with stack := st } = .next u ∧ KeepsAllBut [.stack] t u ∧
      ∀ k : Fin 16, k.val < t.sp.val → u.stack[k] = t.stack[k])

/-- 70_reset_and_hazards.md R241: a jump to its own address leaves the whole state unchanged, at every step (G5, D16). -/
def Obligations.JumpToItselfChangesNothing : Prop := ∀ s : State, s.atSelfJump → s.cycle = .ok s ∧ step s = .next s

/-! ### The host's operations -/

/-- 60_exceptions.md R209: a tick takes 1 from each nonzero timer and changes nothing else. -/
def Obligations.TickCountsBothTimersDown : Prop :=
  ∀ (s : State) (stepped : Bool), ∃ t, (Block.running s stepped).move .tick = .ok (.done, .running t stepped) ∧
    t.dt.toNat = s.dt.toNat - 1 ∧ t.st.toNat = s.st.toNat - 1 ∧ KeepsAllBut [.dt, .st] s t

/-- 60_exceptions.md R211: `set_key` writes one keypad flag and nothing else; an index above 15 is refused (decision
D13). -/
def Obligations.SetKeyWritesOneFlag : Prop :=
  (∀ (s : State) (stepped : Bool) (k : Fin 16) (down : Bool),
    ∃ t, (Block.running s stepped).move (.setKey k.val down) = .ok (.done, .running t stepped) ∧
      t.keys[k] = down ∧ (∀ j : Fin 16, j ≠ k → t.keys[j] = s.keys[j]) ∧ KeepsAllBut [.keys] s t) ∧
  (∀ (b : Block) (k : Nat) (down : Bool), 16 ≤ k → b.move (.setKey k down) = .error .keyIndexRefused)

/-- 20_memory.md R62: `load` puts the image at 0x200 upward and changes nothing else, the font among the rest; a longer
image, or a load after the first step, is refused (decision D13). -/
def Obligations.LoadWritesTheImageAtTheOrigin : Prop :=
  (∀ (s : State) (bytes : List Byte), s.MemInv → bytes.length ≤ 3584 →
    ∃ t, (Block.running s false).move (.load bytes) = .ok (.done, .running t false) ∧
      (∀ k (h : k < bytes.length), t.mem.read (0x200 + k) = bytes[k]) ∧
      KeepsMemOutside 0x200 bytes.length s t ∧ KeepsAllBut [.mem] s t) ∧
  (∀ (s : State) (bytes : List Byte), 3584 < bytes.length →
    (Block.running s false).move (.load bytes) = .error .programTooLong) ∧
  (∀ (s : State) (bytes : List Byte), (Block.running s true).move (.load bytes) = .error .loadAfterStep)

/-- 60_exceptions.md R212: the read operations, any number of them in any order, return the display and the sound timer as
they stand and change nothing. -/
def Obligations.ReadsReturnSnapshotsAndChangeNothing : Prop :=
  ∀ (p : OnDecodeError) (s : State) (stepped : Bool) (ops : List HostOp),
    (∀ op ∈ ops, op = .readDisplay ∨ op = .readSoundTimer) →
    ∃ replies, Block.runWith p (.running s stepped) ops = .ok (replies, .running s stepped) ∧
      replies = ops.map fun op => if op = .readDisplay then .display s.display else .sound s.st

/-- 60_exceptions.md R200, R203, R216: the host is given exactly the result of each step: `Ok` where the cycle ends in
`Ok`, the failure with the cycle's own word where it does not decode, the fault where it faults, and a next state of `step`
is one of the first two. A fault is recorded, and until `reset` a step, a tick and a load are refused (decisions D5, D13). Two clauses are the MODEL'S OWN READING and no rule of the spec's
(DESIGN CHOICE, assumption 12, its third and second readings): after a fault a read is refused, and a key setting with an
index of at most 15 is a move with no effect. -/
def Obligations.FaultIsRecordedUntilReset : Prop :=
  (∀ (s : State) (stepped : Bool) (k : Fault), step s = .fault k →
    (Block.running s stepped).move .step = .ok (.fault k, .faulted k s.draws)) ∧
  (∀ (s t : State) (stepped : Bool), s.cycle = .ok t →
    (Block.running s stepped).move .step = .ok (.stepOk, .running t true)) ∧
  (∀ (s t : State) (w : Word) (stepped : Bool), s.cycle = .decodeError w t →
    (Block.running s stepped).move .step = .ok (.decodeError w, .running t true)) ∧
  (∀ s t : State, step s = .next t → s.cycle = .ok t ∨ ∃ w, s.cycle = .decodeError w t) ∧
  (∀ (k : Fault) (draws : Nat),
    (∀ op ∈ [HostOp.step, .tick], (Block.faulted k draws).move op = .error .movedAfterFault) ∧
    (∀ op ∈ [HostOp.readDisplay, .readSoundTimer], (Block.faulted k draws).move op = .error .readAfterFault) ∧
    (∀ bytes, (Block.faulted k draws).move (.load bytes) = .error .loadAfterStep) ∧
    (∀ key < 16, ∀ down, (Block.faulted k draws).move (.setKey key down) = .ok (.done, .faulted k draws)))
end

