-- ==== Sys2Proof/Laws/Decode.lean ====
section
/-! SUPPORT. The bits and the fields of the word formats (30_encoding.md R71, R72), and a word from its bytes. -/

namespace Sys2Proof

/-! ### The bits of a word -/

/-- The bits of format NNN. -/
theorem getLsbD_wordNNN (f : Nibble) (a : Addr) (k : Nat) :
    (wordNNN f a).getLsbD k = if k < 12 then a.getLsbD k else f.getLsbD (k - 12) :=
  BitVec.getLsbD_append

/-- The bits of format XNN. -/
theorem getLsbD_wordXNN (f : Nibble) (x : Reg) (nn : Byte) (k : Nat) :
    (wordXNN f x nn).getLsbD k =
      if k < 8 then nn.getLsbD k else if k < 12 then x.getLsbD (k - 8) else f.getLsbD (k - 12) := by
  refine (BitVec.getLsbD_append (x := f ++ x) (y := nn)).trans ?_
  rw [BitVec.getLsbD_append, Nat.sub_sub]
  split
  · rfl
  · rename_i h8
    have h12 : k - 8 < 4 ↔ k < 12 := by omega
    simp only [h12]

/-- The bits of format XYN. -/
theorem getLsbD_wordXYN (f : Nibble) (x y : Reg) (n : Nibble) (k : Nat) :
    (wordXYN f x y n).getLsbD k =
      if k < 4 then n.getLsbD k else if k < 8 then y.getLsbD (k - 4)
      else if k < 12 then x.getLsbD (k - 8) else f.getLsbD (k - 12) := by
  refine (BitVec.getLsbD_append (x := f ++ x ++ y) (y := n)).trans ?_
  rw [BitVec.getLsbD_append, BitVec.getLsbD_append, Nat.sub_sub, Nat.sub_sub]
  split
  · rfl
  · rename_i h4
    have h8 : k - 4 < 4 ↔ k < 8 := by omega
    have h12 : k - (4 + 4) < 4 ↔ k < 12 := by omega
    simp only [h8, h12]

/-- The bits of a word from its two bytes (20_memory.md R54). -/
theorem getLsbD_wordOfBytes (hi lo : Byte) (k : Nat) :
    (wordOfBytes hi lo).getLsbD k = if k < 8 then lo.getLsbD k else hi.getLsbD (k - 8) :=
  BitVec.getLsbD_append

/-! ### The fields of a format -/

@[simp] theorem fieldN1_wordNNN (f : Nibble) (a : Addr) : fieldN1 (wordNNN f a) = f := by
  apply BitVec.eq_of_getLsbD_eq; intro k hk
  simp only [fieldN1, BitVec.getLsbD_extractLsb', getLsbD_wordNNN, hk, decide_true, Bool.true_and]
  rw [if_neg (by omega)]; congr 1; omega

@[simp] theorem fieldAddr_wordNNN (f : Nibble) (a : Addr) : fieldAddr (wordNNN f a) = a := by
  apply BitVec.eq_of_getLsbD_eq; intro k hk
  simp only [fieldAddr, BitVec.getLsbD_extractLsb', getLsbD_wordNNN, hk, decide_true, Bool.true_and]
  rw [if_pos (by omega)]; congr 1; omega

@[simp] theorem fieldN1_wordXNN (f : Nibble) (x : Reg) (nn : Byte) : fieldN1 (wordXNN f x nn) = f := by
  apply BitVec.eq_of_getLsbD_eq; intro k hk
  simp only [fieldN1, BitVec.getLsbD_extractLsb', getLsbD_wordXNN, hk, decide_true, Bool.true_and]
  rw [if_neg (by omega), if_neg (by omega)]; congr 1; omega

@[simp] theorem fieldX_wordXNN (f : Nibble) (x : Reg) (nn : Byte) : fieldX (wordXNN f x nn) = x := by
  apply BitVec.eq_of_getLsbD_eq; intro k hk
  simp only [fieldX, BitVec.getLsbD_extractLsb', getLsbD_wordXNN, hk, decide_true, Bool.true_and]
  rw [if_neg (by omega), if_pos (by omega)]; congr 1; omega

@[simp] theorem fieldNN_wordXNN (f : Nibble) (x : Reg) (nn : Byte) : fieldNN (wordXNN f x nn) = nn := by
  apply BitVec.eq_of_getLsbD_eq; intro k hk
  simp only [fieldNN, BitVec.getLsbD_extractLsb', getLsbD_wordXNN, hk, decide_true, Bool.true_and]
  rw [if_pos (by omega)]; congr 1; omega

@[simp] theorem fieldN1_wordXYN (f : Nibble) (x y : Reg) (n : Nibble) : fieldN1 (wordXYN f x y n) = f := by
  apply BitVec.eq_of_getLsbD_eq; intro k hk
  simp only [fieldN1, BitVec.getLsbD_extractLsb', getLsbD_wordXYN, hk, decide_true, Bool.true_and]
  rw [if_neg (by omega), if_neg (by omega), if_neg (by omega)]; congr 1; omega

@[simp] theorem fieldX_wordXYN (f : Nibble) (x y : Reg) (n : Nibble) : fieldX (wordXYN f x y n) = x := by
  apply BitVec.eq_of_getLsbD_eq; intro k hk
  simp only [fieldX, BitVec.getLsbD_extractLsb', getLsbD_wordXYN, hk, decide_true, Bool.true_and]
  rw [if_neg (by omega), if_neg (by omega), if_pos (by omega)]; congr 1; omega

@[simp] theorem fieldY_wordXYN (f : Nibble) (x y : Reg) (n : Nibble) : fieldY (wordXYN f x y n) = y := by
  apply BitVec.eq_of_getLsbD_eq; intro k hk
  simp only [fieldY, BitVec.getLsbD_extractLsb', getLsbD_wordXYN, hk, decide_true, Bool.true_and]
  rw [if_neg (by omega), if_pos (by omega)]; congr 1; omega

@[simp] theorem fieldN_wordXYN (f : Nibble) (x y : Reg) (n : Nibble) : fieldN (wordXYN f x y n) = n := by
  apply BitVec.eq_of_getLsbD_eq; intro k hk
  simp only [fieldN, BitVec.getLsbD_extractLsb', getLsbD_wordXYN, hk, decide_true, Bool.true_and]
  rw [if_pos (by omega)]; congr 1; omega

/-! ### The value of a format -/

/-- The value of two bit vectors written one after the other. -/
theorem toNat_append_eq {n m : Nat} (x : BitVec n) (y : BitVec m) : (x ++ y).toNat = x.toNat * 2 ^ m + y.toNat := by
  rw [BitVec.toNat_append, ← Nat.shiftLeft_add_eq_or_of_lt y.isLt, Nat.shiftLeft_eq]

/-- The value of a word of format NNN. -/
theorem wordNNN_toNat (f : Nibble) (a : Addr) : (wordNNN f a).toNat = f.toNat * 4096 + a.toNat :=
  toNat_append_eq f a

/-- The value of a word of format XNN. -/
theorem wordXNN_toNat (f : Nibble) (x : Reg) (nn : Byte) :
    (wordXNN f x nn).toNat = f.toNat * 4096 + x.toNat * 256 + nn.toNat := by
  refine (toNat_append_eq (f ++ x) nn).trans ?_
  rw [toNat_append_eq]
  omega

/-- The value of a word of format XYN. -/
theorem wordXYN_toNat (f : Nibble) (x y : Reg) (n : Nibble) :
    (wordXYN f x y n).toNat = f.toNat * 4096 + x.toNat * 256 + y.toNat * 16 + n.toNat := by
  refine (toNat_append_eq (f ++ x ++ y) n).trans ?_
  rw [toNat_append_eq, toNat_append_eq]
  omega

/-- The value of a word from its bytes: big-endian (20_memory.md R54). -/
theorem wordOfBytes_toNat (hi lo : Byte) : (wordOfBytes hi lo).toNat = hi.toNat * 256 + lo.toNat :=
  toNat_append_eq hi lo

/-! ### A word and its bytes -/

@[simp] theorem wordOfBytes_highByte_lowByte (w : Word) : wordOfBytes (highByte w) (lowByte w) = w := by
  apply BitVec.eq_of_getLsbD_eq; intro k hk
  simp only [getLsbD_wordOfBytes, highByte, lowByte, BitVec.getLsbD_extractLsb']
  split
  · simp_all
  · rename_i h
    have h1 : k - 8 < 8 := by omega
    have h2 : 8 + (k - 8) = k := by omega
    simp [h1, h2]

/-- The high byte of a word is its value divided by 256. -/
theorem highByte_toNat (w : Word) : (highByte w).toNat = w.toNat / 256 := by
  have := w.isLt
  simp only [highByte, BitVec.extractLsb'_toNat, Nat.shiftRight_eq_div_pow]
  omega

/-- The low byte of a word is its value modulo 256. -/
theorem lowByte_toNat (w : Word) : (lowByte w).toNat = w.toNat % 256 := by
  simp [lowByte, BitVec.extractLsb'_toNat]

/-! ### The value of a field -/

theorem fieldN1_toNat (w : Word) : (fieldN1 w).toNat = w.toNat / 4096 := by
  have := w.isLt
  simp only [fieldN1, BitVec.extractLsb'_toNat, Nat.shiftRight_eq_div_pow]
  omega

theorem fieldX_toNat (w : Word) : (fieldX w).toNat = w.toNat / 256 % 16 := by
  simp [fieldX, BitVec.extractLsb'_toNat, Nat.shiftRight_eq_div_pow]

theorem fieldY_toNat (w : Word) : (fieldY w).toNat = w.toNat / 16 % 16 := by
  simp [fieldY, BitVec.extractLsb'_toNat, Nat.shiftRight_eq_div_pow]

theorem fieldN_toNat (w : Word) : (fieldN w).toNat = w.toNat % 16 := by
  simp [fieldN, BitVec.extractLsb'_toNat]

theorem fieldNN_toNat (w : Word) : (fieldNN w).toNat = w.toNat % 256 := by
  simp [fieldNN, BitVec.extractLsb'_toNat]

theorem fieldAddr_toNat (w : Word) : (fieldAddr w).toNat = w.toNat % 4096 := by
  simp [fieldAddr, BitVec.extractLsb'_toNat]

/-! ### A word from its fields -/

theorem wordNNN_fields (w : Word) : wordNNN (fieldN1 w) (fieldAddr w) = w := by
  apply BitVec.eq_of_toNat_eq
  rw [wordNNN_toNat, fieldN1_toNat, fieldAddr_toNat]
  omega

theorem wordXNN_fields (w : Word) : wordXNN (fieldN1 w) (fieldX w) (fieldNN w) = w := by
  apply BitVec.eq_of_toNat_eq
  rw [wordXNN_toNat, fieldN1_toNat, fieldX_toNat, fieldNN_toNat]
  omega

theorem wordXYN_fields (w : Word) : wordXYN (fieldN1 w) (fieldX w) (fieldY w) (fieldN w) = w := by
  apply BitVec.eq_of_toNat_eq
  rw [wordXYN_toNat, fieldN1_toNat, fieldX_toNat, fieldY_toNat, fieldN_toNat]
  omega

/-- The mask of a form that ignores `N4` clears that field. -/
theorem and_mask_ignoring_n (w : Word) : w &&& 0xFFF0#16 = wordXYN (fieldN1 w) (fieldX w) (fieldY w) 0x0#4 := by
  conv => lhs; rw [← wordXYN_fields w]
  apply BitVec.eq_of_getLsbD_eq
  intro k hk
  rw [BitVec.getLsbD_and, getLsbD_wordXYN, getLsbD_wordXYN]
  interval_cases k <;> simp

/-- The mask of a form that ignores `y` clears that field. -/
theorem and_mask_ignoring_y (w : Word) : w &&& 0xFF0F#16 = wordXYN (fieldN1 w) (fieldX w) 0x0#4 (fieldN w) := by
  conv => lhs; rw [← wordXYN_fields w]
  apply BitVec.eq_of_getLsbD_eq
  intro k hk
  rw [BitVec.getLsbD_and, getLsbD_wordXYN, getLsbD_wordXYN]
  interval_cases k <;> simp

/-- The mask of a family alone keeps the high nibble. -/
theorem and_mask_family (w : Word) : w &&& 0xF000#16 = wordXYN (fieldN1 w) 0x0#4 0x0#4 0x0#4 := by
  conv => lhs; rw [← wordXYN_fields w]
  apply BitVec.eq_of_getLsbD_eq
  intro k hk
  rw [BitVec.getLsbD_and, getLsbD_wordXYN, getLsbD_wordXYN]
  interval_cases k <;> simp

/-- The mask of family 0x8 keeps the high and the low nibble. -/
theorem and_mask_family_n (w : Word) : w &&& 0xF00F#16 = wordXYN (fieldN1 w) 0x0#4 0x0#4 (fieldN w) := by
  conv => lhs; rw [← wordXYN_fields w]
  apply BitVec.eq_of_getLsbD_eq
  intro k hk
  rw [BitVec.getLsbD_and, getLsbD_wordXYN, getLsbD_wordXYN]
  interval_cases k <;> simp

/-- The mask of families 0xE and 0xF keeps the high nibble and the low byte. -/
theorem and_mask_family_nn (w : Word) : w &&& 0xF0FF#16 = wordXNN (fieldN1 w) 0x0#4 (fieldNN w) := by
  conv => lhs; rw [← wordXNN_fields w]
  apply BitVec.eq_of_getLsbD_eq
  intro k hk
  rw [BitVec.getLsbD_and, getLsbD_wordXNN, getLsbD_wordXNN]
  interval_cases k <;> simp

/-- Decoding an encoded word goes through its bytes. -/
theorem decodeTableWord_eq (w : Nat) (h : w < 65536) :
    decodeTableWord 16 w = (decode (BitVec.ofNat 16 w)).toOption := by
  have hw : w % 2 ^ 16 = w := Nat.mod_eq_of_lt h
  simp only [decodeTableWord, decodeBytes, hw, wordOfBytes_highByte_lowByte]
  cases decode (BitVec.ofNat 16 w) <;> rfl

end Sys2Proof
end

