-- ==== Sys2Proof/Laws/Draw.lean ====
section
/-! SUPPORT. What XOR-plotting a sprite does to the frame buffer (45_draw.md R161, R162): no pixel is plotted twice, so
the new frame buffer is the old one XOR the wrapped mask of the sprite, and there is a collision exactly when the old frame
buffer and the mask meet. -/

namespace Sys2Proof.Machine

/-- Flipping a pixel inverts it and leaves every other as it was. -/
theorem Display.pixel_flip (d : Display) (y y' : Fin 32) (x x' : Fin 64) :
    Display.pixel (Display.flip d y x) y' x' = if y' = y ∧ x' = x then !Display.pixel d y x else Display.pixel d y' x' := by
  simp only [Display.pixel, Display.flip, Fin.getElem_fin, Vector.getElem_set, Fin.val_inj]
  by_cases hy : y = y'
  · subst hy
    by_cases hx : x = x'
    · subst hx; simp
    · simp [hx, Ne.symm hx, Fin.val_inj]
  · simp [hy, Ne.symm hy]

/-- A clear display has every pixel off. -/
@[simp] theorem Display.pixel_clear (y : Fin 32) (x : Fin 64) : Display.pixel Display.clear y x = false := by
  simp [Display.pixel, Display.clear]

/-- Columns closer than 64 apart are plotted in different columns of the frame buffer. -/
theorem spriteColumn_inj (vx : Byte) {c c' : Nat} (h : c < 64) (h' : c' < 64)
    (he : spriteColumn vx c = spriteColumn vx c') : c = c' := by
  have := congrArg Fin.val he
  simp only [spriteColumn, Fin.ofNat] at this
  omega

/-- Rows closer than 32 apart are plotted in different rows of the frame buffer. -/
theorem spriteRow_inj (vy : Byte) {r r' : Nat} (h : r' < 32) (hle : r ≤ r') (he : spriteRow vy r = spriteRow vy r') :
    r = r' := by
  have := congrArg Fin.val he
  simp only [spriteRow, Fin.ofNat] at this
  omega

/-- The bits of a sprite's row at the columns of a list meet the pixel in row `y` and column `x`. -/
def rowMask (vx vy : Byte) (row : Nat) (b : Byte) (cols : List Nat) (y : Fin 32) (x : Fin 64) : Bool :=
  cols.any fun col => spriteBit b col && decide (spriteRow vy row = y ∧ spriteColumn vx col = x)

/-- Plotting the columns of a list with no column twice: the mask is XORed into the frame buffer, and a collision is
added when a plotted pixel was on. -/
theorem foldl_plotBit (vx vy : Byte) (row : Nat) (b : Byte) (cols : List Nat) (hlt : ∀ c ∈ cols, c < 64)
    (hnd : cols.Nodup) (acc : Display × Bool) :
    (∀ y x, Display.pixel (cols.foldl (plotBit vx vy row b) acc).1 y x =
      (Display.pixel acc.1 y x ^^ rowMask vx vy row b cols y x)) ∧
    (cols.foldl (plotBit vx vy row b) acc).2 =
      (acc.2 || cols.any fun col => spriteBit b col && Display.pixel acc.1 (spriteRow vy row) (spriteColumn vx col)) := by
  induction cols generalizing acc with
  | nil => simp [rowMask]
  | cons c cols ih =>
    have hc : c ∉ cols := (List.nodup_cons.1 hnd).1
    obtain ⟨ih1, ih2⟩ := ih (fun c' h' => hlt c' (List.mem_cons_of_mem _ h')) (List.nodup_cons.1 hnd).2
      (plotBit vx vy row b acc c)
    have hother : ∀ c' ∈ cols, spriteColumn vx c' ≠ spriteColumn vx c := fun c' h' he =>
      hc (spriteColumn_inj vx (hlt c' (List.mem_cons_of_mem _ h')) (hlt c List.mem_cons_self) he ▸ h')
    by_cases hb : spriteBit b c
    · have hplot : plotBit vx vy row b acc c = plotPixel acc (spriteRow vy row) (spriteColumn vx c) := if_pos hb
      refine ⟨fun y x => ?_, ?_⟩
      · rw [List.foldl_cons, ih1, hplot]
        simp only [plotPixel, Display.pixel_flip, rowMask, List.any_cons, hb, Bool.true_and]
        by_cases hyx : y = spriteRow vy row ∧ x = spriteColumn vx c
        · obtain ⟨rfl, rfl⟩ := hyx
          have : (cols.any fun col => spriteBit b col &&
              decide (spriteRow vy row = spriteRow vy row ∧ spriteColumn vx col = spriteColumn vx c)) = false := by
            rw [List.any_eq_false]
            intro c' h'
            simp [hother c' h']
          rw [if_pos ⟨rfl, rfl⟩, this]
          simp
        · rw [if_neg hyx]
          have : decide (spriteRow vy row = y ∧ spriteColumn vx c = x) = false :=
            decide_eq_false fun h => hyx ⟨h.1.symm, h.2.symm⟩
          rw [this, Bool.false_or]
      · rw [List.foldl_cons, ih2, hplot]
        simp only [plotPixel, List.any_cons, hb, Bool.true_and, Bool.or_assoc]
        congr 2
        rw [Bool.eq_iff_iff, List.any_eq_true, List.any_eq_true]
        refine exists_congr fun c' => and_congr_right fun h' => ?_
        rw [Display.pixel_flip, if_neg fun h => hother c' h' h.2]
    · have hplot : plotBit vx vy row b acc c = acc := if_neg hb
      refine ⟨fun y x => ?_, ?_⟩
      · rw [List.foldl_cons, ih1, hplot]
        simp [rowMask, hb]
      · rw [List.foldl_cons, ih2, hplot]
        simp [hb]

/-- Row `row` of a sprite meets the pixel in row `y` and column `x`. -/
def rowCovers (vx vy : Byte) (row : Nat) (b : Byte) (y : Fin 32) (x : Fin 64) : Prop :=
  ∃ col < 8, spriteBit b col = true ∧ spriteRow vy row = y ∧ spriteColumn vx col = x

/-- Plotting one row XORs its mask into the frame buffer. -/
theorem pixel_plotRow (vx vy : Byte) (row : Nat) (b : Byte) (acc : Display × Bool) (y : Fin 32) (x : Fin 64) :
    Display.pixel (plotRow vx vy row b acc).1 y x = true ↔
      ¬(Display.pixel acc.1 y x = true ↔ rowCovers vx vy row b y x) := by
  have h := (foldl_plotBit vx vy row b (List.range 8) (fun c hc => by have := List.mem_range.1 hc; omega)
    List.nodup_range acc).1 y x
  have hm : rowMask vx vy row b (List.range 8) y x = true ↔ rowCovers vx vy row b y x := by
    simp [rowMask, rowCovers, List.any_eq_true]
  rw [plotRow, h, ← hm]
  cases Display.pixel acc.1 y x <;> cases rowMask vx vy row b (List.range 8) y x <;> simp

/-- Plotting one row collides exactly when its mask meets the frame buffer, or there was a collision already. -/
theorem hit_plotRow (vx vy : Byte) (row : Nat) (b : Byte) (acc : Display × Bool) :
    (plotRow vx vy row b acc).2 = true ↔
      acc.2 = true ∨ ∃ y x, rowCovers vx vy row b y x ∧ Display.pixel acc.1 y x = true := by
  have h := (foldl_plotBit vx vy row b (List.range 8) (fun c hc => by have := List.mem_range.1 hc; omega)
    List.nodup_range acc).2
  rw [plotRow, h, Bool.or_eq_true, List.any_eq_true]
  refine or_congr_right ⟨?_, ?_⟩
  · rintro ⟨col, hcol, hp⟩
    rw [Bool.and_eq_true] at hp
    exact ⟨_, _, ⟨col, List.mem_range.1 hcol, hp.1, rfl, rfl⟩, hp.2⟩
  · rintro ⟨y, x, ⟨col, hcol, hb, rfl, rfl⟩, hp⟩
    exact ⟨col, List.mem_range.2 hcol, by rw [hb, hp]; rfl⟩

/-- The rows of a sprite from number `row` on meet the pixel in row `y` and column `x`. -/
def spriteCovers (vx vy : Byte) (row : Nat) (bs : List Byte) (y : Fin 32) (x : Fin 64) : Prop :=
  ∃ k, ∃ h : k < bs.length, rowCovers vx vy (row + k) bs[k] y x

/-- The first row of a sprite, or one of the rows after it. -/
theorem spriteCovers_cons (vx vy : Byte) (row : Nat) (b : Byte) (bs : List Byte) (y : Fin 32) (x : Fin 64) :
    spriteCovers vx vy row (b :: bs) y x ↔ rowCovers vx vy row b y x ∨ spriteCovers vx vy (row + 1) bs y x := by
  constructor
  · rintro ⟨k, hk, hc⟩
    cases k with
    | zero => exact .inl hc
    | succ k =>
      refine .inr ⟨k, by simpa using hk, ?_⟩
      have : row + (k + 1) = row + 1 + k := by omega
      simpa [this] using hc
  · rintro (hc | ⟨k, hk, hc⟩)
    · exact ⟨0, by simp, hc⟩
    · refine ⟨k + 1, by simpa using hk, ?_⟩
      have : row + (k + 1) = row + 1 + k := by omega
      simpa [this] using hc

/-- No pixel is met by the first row of a sprite and by a later one: the rows are distinct modulo 32 (R161). -/
theorem rows_disjoint (vx vy : Byte) (row : Nat) (b : Byte) (bs : List Byte) (h : row + 1 + bs.length ≤ 32) (y : Fin 32)
    (x x' : Fin 64) (hc : rowCovers vx vy row b y x) : ¬ spriteCovers vx vy (row + 1) bs y x' := by
  rintro ⟨k, hk, hc'⟩
  obtain ⟨_, _, _, hy, _⟩ := hc
  obtain ⟨_, _, _, hy', _⟩ := hc'
  have := spriteRow_inj vy (r := row) (r' := row + 1 + k) (by omega) (by omega) (hy.trans hy'.symm)
  omega

/-- Plotting a sprite XORs its mask into the frame buffer. -/
theorem pixel_plotRows (vx vy : Byte) (row : Nat) (bs : List Byte) (h : row + bs.length ≤ 32) (acc : Display × Bool)
    (y : Fin 32) (x : Fin 64) :
    Display.pixel (plotRows vx vy row bs acc).1 y x = true ↔
      ¬(Display.pixel acc.1 y x = true ↔ spriteCovers vx vy row bs y x) := by
  induction bs generalizing row acc with
  | nil => simp [plotRows, spriteCovers]
  | cons b bs ih =>
    simp only [List.length_cons] at h
    rw [plotRows, ih (row + 1) (by omega), pixel_plotRow, spriteCovers_cons]
    have := rows_disjoint vx vy row b bs (by omega) y x x
    tauto

/-- Plotting a sprite collides exactly when its mask meets the frame buffer, or there was a collision already. -/
theorem hit_plotRows (vx vy : Byte) (row : Nat) (bs : List Byte) (h : row + bs.length ≤ 32) (acc : Display × Bool) :
    (plotRows vx vy row bs acc).2 = true ↔
      acc.2 = true ∨ ∃ y x, spriteCovers vx vy row bs y x ∧ Display.pixel acc.1 y x = true := by
  induction bs generalizing row acc with
  | nil => simp [plotRows, spriteCovers]
  | cons b bs ih =>
    simp only [List.length_cons] at h
    rw [plotRows, ih (row + 1) (by omega), hit_plotRow, or_assoc]
    refine or_congr_right ⟨?_, ?_⟩
    · rintro (⟨y, x, hc, hp⟩ | ⟨y, x, hc, hp⟩)
      · exact ⟨y, x, (spriteCovers_cons ..).2 (.inl hc), hp⟩
      · have hd : ¬ rowCovers vx vy row b y x := fun hr => rows_disjoint vx vy row b bs (by omega) y x x hr hc
        rw [pixel_plotRow] at hp
        exact ⟨y, x, (spriteCovers_cons ..).2 (.inr hc), by tauto⟩
    · rintro ⟨y, x, hc, hp⟩
      rcases (spriteCovers_cons ..).1 hc with hr | hs
      · exact .inl ⟨y, x, hr, hp⟩
      · have hd : ¬ rowCovers vx vy row b y x := fun hr => rows_disjoint vx vy row b bs (by omega) y x x hr hs
        refine .inr ⟨y, x, hs, ?_⟩
        rw [pixel_plotRow]
        tauto

end Sys2Proof.Machine
end

