-- ==== Sys2Proof/Laws/Memory.lean ====
section
/-! SUPPORT. The memory: a read after a write, and that every memory operation keeps the canonical form, in which equal
memories are equal data. -/

namespace Sys2Proof.Machine

/-! ### Reading -/

/-- An address below every listed one reads as its reset content. -/
theorem Memory.read_of_lt {m : Memory} {lo a : Nat} (h : Memory.wfFrom lo m = true) (ha : a < lo) :
    m.read a = resetByte a := by
  induction m generalizing lo with
  | nil => rfl
  | cons c m ih =>
    obtain ⟨b, v⟩ := c
    simp only [Memory.wfFrom, Bool.and_eq_true, decide_eq_true_eq] at h
    have hab : a ≠ b := by omega
    simp only [Memory.read, if_neg hab]
    exact ih h.2 (by omega)

/-- The canonical form from an address up is one from every lower address up. -/
theorem Memory.wfFrom_mono {m : Memory} {lo lo' : Nat} (hle : lo' ≤ lo) (h : Memory.wfFrom lo m = true) :
    Memory.wfFrom lo' m = true := by
  cases m with
  | nil => rfl
  | cons c m =>
    obtain ⟨b, v⟩ := c
    simp only [Memory.wfFrom, Bool.and_eq_true, decide_eq_true_eq] at h ⊢
    exact ⟨⟨⟨by omega, h.1.1.2⟩, h.1.2⟩, h.2⟩

/-- A read after a write in the canonical form: the byte written at its address, every other address as before. -/
theorem Memory.read_write_from {m : Memory} {lo : Nat} (h : Memory.wfFrom lo m = true) (a k : Nat) (v : Byte) :
    (m.write a v).read k = if k = a then v else m.read k := by
  induction m generalizing lo with
  | nil =>
    by_cases hv : v = resetByte a
    · by_cases hk : k = a
      · simp [Memory.write, Memory.read, hv, hk]
      · simp [Memory.write, Memory.read, hv, hk]
    · simp [Memory.write, Memory.read, hv]
  | cons c m ih =>
    obtain ⟨b, w⟩ := c
    have hwf : Memory.wfFrom lo ((b, w) :: m) = true := h
    simp only [Memory.wfFrom, Bool.and_eq_true, decide_eq_true_eq] at h
    simp only [Memory.write]
    split
    · rename_i hab
      split
      · rename_i hv
        by_cases hk : k = a
        · subst hk
          rw [if_pos rfl, hv]
          exact Memory.read_of_lt (lo := b) (by simp [Memory.wfFrom, h.1.1.2, h.1.2, h.2]) hab
        · rw [if_neg hk]
      · simp [Memory.read]
    · split
      · rename_i _ hab
        subst hab
        split
        · rename_i hv
          by_cases hk : k = a
          · subst hk
            rw [if_pos rfl, hv]
            exact Memory.read_of_lt h.2 (by omega)
          · simp [Memory.read, hk]
        · by_cases hk : k = a <;> simp [Memory.read, hk]
      · rename_i _ hab
        simp only [Memory.read]
        by_cases hkb : k = b
        · subst hkb
          simp [Ne.symm hab]
        · simp [hkb, ih h.2]

/-- A read after a write, in a memory in the canonical form. -/
theorem Memory.read_write {m : Memory} (h : m.wf = true) (a k : Nat) (v : Byte) :
    (m.write a v).read k = if k = a then v else m.read k :=
  Memory.read_write_from h a k v

/-! ### The canonical form is kept -/

/-- Writing inside the memory keeps the canonical form. -/
theorem Memory.wfFrom_write {m : Memory} {lo a : Nat} {v : Byte} (h : Memory.wfFrom lo m = true) (hlo : lo ≤ a)
    (ha : a < 4096) : Memory.wfFrom lo (m.write a v) = true := by
  induction m generalizing lo with
  | nil =>
    simp only [Memory.write]
    split
    · rfl
    · simp_all [Memory.wfFrom]
  | cons c m ih =>
    obtain ⟨b, w⟩ := c
    have hwf : Memory.wfFrom lo ((b, w) :: m) = true := h
    simp only [Memory.wfFrom, Bool.and_eq_true, decide_eq_true_eq] at h
    simp only [Memory.write]
    split
    · rename_i hab
      split
      · exact hwf
      · rename_i hv
        simp only [Memory.wfFrom, Bool.and_eq_true, decide_eq_true_eq]
        exact ⟨⟨⟨hlo, ha⟩, by simpa using hv⟩, ⟨⟨by omega, h.1.1.2⟩, h.1.2⟩, h.2⟩
    · split
      · rename_i _ hab
        subst hab
        split
        · exact Memory.wfFrom_mono (by omega) h.2
        · rename_i hv
          simp only [Memory.wfFrom, Bool.and_eq_true, decide_eq_true_eq]
          exact ⟨⟨⟨hlo, ha⟩, by simpa using hv⟩, h.2⟩
      · rename_i _ hab
        simp only [Memory.wfFrom, Bool.and_eq_true, decide_eq_true_eq]
        exact ⟨⟨⟨h.1.1.1, h.1.1.2⟩, h.1.2⟩, ih h.2 (by omega)⟩

/-- Writing one byte inside the memory keeps the canonical form. -/
theorem Memory.wf_write {m : Memory} {a : Nat} {v : Byte} (h : m.wf = true) (ha : a < 4096) :
    (m.write a v).wf = true :=
  Memory.wfFrom_write h (Nat.zero_le a) ha

/-- Writing bytes inside the memory keeps the canonical form. -/
theorem Memory.wf_writeAll {m : Memory} {a : Nat} {vs : List Byte} (h : m.wf = true)
    (ha : vs = [] ∨ a + vs.length ≤ 4096) : (m.writeAll a vs).wf = true := by
  induction vs generalizing m a with
  | nil => exact h
  | cons v vs ih =>
    simp only [List.cons_ne_nil, false_or, List.length_cons] at ha
    exact ih (Memory.wf_write h (by omega)) (by right; omega)

/-- A read after a write of several bytes: the byte written inside their span, as before outside it. -/
theorem Memory.read_writeAll {m : Memory} {a : Nat} {vs : List Byte} (h : m.wf = true)
    (ha : vs = [] ∨ a + vs.length ≤ 4096) (k : Nat) :
    (m.writeAll a vs).read k =
      if a ≤ k ∧ k < a + vs.length then vs.getD (k - a) 0x00#8 else m.read k := by
  induction vs generalizing m a with
  | nil => simp [Memory.writeAll]
  | cons v vs ih =>
    simp only [List.cons_ne_nil, false_or, List.length_cons] at ha
    have hstep := ih (m := m.write a v) (a := a + 1) (Memory.wf_write h (by omega)) (by right; omega)
    simp only [Memory.writeAll, hstep, Memory.read_write h, List.length_cons]
    by_cases hk : k = a
    · subst hk
      simp
    · by_cases hin : a + 1 ≤ k ∧ k < a + 1 + vs.length
      · have : k - a = (k - (a + 1)) + 1 := by omega
        rw [if_pos hin, if_pos (by omega), this, List.getD_cons_succ]
      · rw [if_neg hin, if_neg hk, if_neg (by omega)]

/-! ### Equal memories are equal data -/

/-- Two memories in the canonical form that read alike are the same list. -/
theorem Memory.ext_from {m m' : Memory} {lo : Nat} (h : Memory.wfFrom lo m = true) (h' : Memory.wfFrom lo m' = true)
    (hr : ∀ a, m.read a = m'.read a) : m = m' := by
  induction m generalizing m' lo with
  | nil =>
    cases m' with
    | nil => rfl
    | cons c m' =>
      obtain ⟨b, v⟩ := c
      simp only [Memory.wfFrom, Bool.and_eq_true, decide_eq_true_eq, bne_iff_ne] at h'
      exact absurd (by simpa [Memory.read] using (hr b).symm) h'.1.2
  | cons c m ih =>
    obtain ⟨b, v⟩ := c
    have hwf : Memory.wfFrom b ((b, v) :: m) = true := by
      simp only [Memory.wfFrom, Bool.and_eq_true, decide_eq_true_eq] at h ⊢
      exact ⟨⟨⟨le_rfl, h.1.1.2⟩, h.1.2⟩, h.2⟩
    simp only [Memory.wfFrom, Bool.and_eq_true, decide_eq_true_eq, bne_iff_ne] at h
    cases m' with
    | nil => exact absurd (by simpa [Memory.read] using hr b) h.1.2
    | cons c' m' =>
      obtain ⟨b', v'⟩ := c'
      have hwf' : Memory.wfFrom b' ((b', v') :: m') = true := by
        simp only [Memory.wfFrom, Bool.and_eq_true, decide_eq_true_eq] at h' ⊢
        exact ⟨⟨⟨le_rfl, h'.1.1.2⟩, h'.1.2⟩, h'.2⟩
      simp only [Memory.wfFrom, Bool.and_eq_true, decide_eq_true_eq, bne_iff_ne] at h'
      have hbb : b = b' := by
        rcases lt_trichotomy b b' with hlt | heq | hgt
        · have hb := hr b
          rw [Memory.read_of_lt hwf' hlt] at hb
          exact absurd (by simpa [Memory.read] using hb) h.1.2
        · exact heq
        · have hb := hr b'
          rw [Memory.read_of_lt hwf hgt] at hb
          exact absurd (by simpa [Memory.read] using hb.symm) h'.1.2
      subst hbb
      have hvv : v = v' := by simpa [Memory.read] using hr b
      subst hvv
      have htail : m = m' := by
        refine ih h.2 h'.2 fun a => ?_
        by_cases ha : a = b
        · subst ha
          rw [Memory.read_of_lt h.2 (by omega), Memory.read_of_lt h'.2 (by omega)]
        · simpa [Memory.read, ha] using hr a
      rw [htail]

/-- Two memories in the canonical form that read alike are the same list. -/
theorem Memory.ext_of_wf {m m' : Memory} (h : m.wf = true) (h' : m'.wf = true) (hr : ∀ a, m.read a = m'.read a) :
    m = m' :=
  Memory.ext_from h h' hr

end Sys2Proof.Machine
end

