-- ==== Sys2Proof/Laws/Ops.lean ====
section
/-! SUPPORT. For each shared operation, what it can do, said once; and what one step can do. -/

namespace Sys2Proof.Machine

/-! ### Fetch -/

/-- The fetch reads the big-endian word at `pc` exactly when both its bytes lie in the memory. -/
theorem State.fetch_eq_ok_iff (s : State) (w : Word) :
    s.fetch = .ok w ↔
      s.pc.toNat + 1 < 4096 ∧ w = wordOfBytes (s.mem.read s.pc.toNat) (s.mem.read (s.pc.toNat + 1)) := by
  simp only [State.fetch, Config.memSize]
  split <;> simp_all [eq_comm]

/-- The fetch faults exactly when one of its bytes lies outside the memory. -/
theorem State.fetch_eq_error_iff (s : State) (k : Fault) :
    s.fetch = .error k ↔ 4096 ≤ s.pc.toNat + 1 ∧ k = .memOutOfBounds := by
  simp only [State.fetch, Config.memSize]
  split
  · simp only [reduceCtorEq, false_iff, not_and]; omega
  · simp only [Except.error.injEq, eq_comm]; constructor
    · intro h; exact ⟨by omega, h⟩
    · exact fun h => h.2

/-! ### Spans of memory -/

/-- A span is inside the memory when it is empty or ends by the last address. -/
theorem spanInside_iff (a n : Nat) : spanInside a n = true ↔ n = 0 ∨ a + n ≤ 4096 := by
  simp [spanInside, Config.memSize]

/-- A read of a span answers exactly when it is inside, and then byte `k` of the answer is the byte at `a + k`. -/
theorem State.readSpan_eq_ok_iff (s : State) (a n : Nat) (bs : List Byte) :
    s.readSpan a n = .ok bs ↔
      (n = 0 ∨ a + n ≤ 4096) ∧ bs = (List.range n).map fun k => s.mem.read (a + k) := by
  simp only [State.readSpan, spanInside_iff]
  split <;> simp_all [eq_comm]

/-- A read of a span faults exactly when it is not inside. -/
theorem State.readSpan_eq_error_iff (s : State) (a n : Nat) (k : Fault) :
    s.readSpan a n = .error k ↔ ¬(n = 0 ∨ a + n ≤ 4096) ∧ k = .memOutOfBounds := by
  simp only [State.readSpan, spanInside_iff]
  split <;> simp_all [eq_comm]

/-- A write of a span answers exactly when it is inside, and then it writes memory alone. -/
theorem State.writeSpan_eq_ok_iff (s : State) (a : Nat) (bs : List Byte) (t : State) :
    s.writeSpan a bs = .ok t ↔
      (bs.length = 0 ∨ a + bs.length ≤ 4096) ∧ t = s.setMem (s.mem.writeAll a bs) := by
  simp only [State.writeSpan, spanInside_iff]
  split <;> simp_all [eq_comm]

/-- A write of a span faults exactly when it is not inside. -/
theorem State.writeSpan_eq_error_iff (s : State) (a : Nat) (bs : List Byte) (k : Fault) :
    s.writeSpan a bs = .error k ↔ ¬(bs.length = 0 ∨ a + bs.length ≤ 4096) ∧ k = .memOutOfBounds := by
  simp only [State.writeSpan, spanInside_iff]
  split <;> simp_all [eq_comm]

/-- A write of a span keeps the memory's canonical form. -/
theorem State.wf_of_writeSpan {s t : State} {a : Nat} {bs : List Byte} (hs : s.mem.wf = true)
    (h : s.writeSpan a bs = .ok t) : t.mem.wf = true := by
  obtain ⟨hin, rfl⟩ := (s.writeSpan_eq_ok_iff a bs t).1 h
  exact Memory.wf_writeAll hs (hin.imp List.eq_nil_of_length_eq_zero id)

/-! ### Stack -/

/-- A push answers exactly when the stack is not full, and then it writes slot SP and counts it. -/
theorem State.push_eq_ok_iff (s : State) (w : Word) (t : State) :
    s.push w = .ok t ↔
      ∃ h : s.sp.val < 16, t = { s with stack := s.stack.set s.sp.val w h, sp := ⟨s.sp.val + 1, by omega⟩ } := by
  simp only [State.push]
  split <;> simp_all [eq_comm]

/-- A push faults exactly when the stack is full. -/
theorem State.push_eq_error_iff (s : State) (w : Word) (k : Fault) :
    s.push w = .error k ↔ s.sp.val = 16 ∧ k = .stackOverflow := by
  have := s.sp.isLt
  simp only [State.push]
  split
  · simp only [reduceCtorEq, false_iff, not_and]; omega
  · simp only [Except.error.injEq, eq_comm]
    exact ⟨fun h => ⟨by omega, h⟩, fun h => h.2⟩

/-- A pop answers exactly when the stack is not empty, and then it answers the last slot and uncounts it. -/
theorem State.pop_eq_ok_iff (s : State) (w : Word) (t : State) :
    s.pop = .ok (w, t) ↔
      s.sp.val ≠ 0 ∧ w = s.stack[s.sp.val - 1]'(by omega) ∧ t = { s with sp := ⟨s.sp.val - 1, by omega⟩ } := by
  simp only [State.pop]
  split <;> simp_all [eq_comm]

/-- A pop faults exactly when the stack is empty. -/
theorem State.pop_eq_error_iff (s : State) (k : Fault) : s.pop = .error k ↔ s.sp.val = 0 ∧ k = .stackUnderflow := by
  simp only [State.pop]
  split <;> simp_all [eq_comm]

/-! ### Keypad -/

/-- A key number tests a key exactly when it is at most 15. -/
theorem State.testKey_eq_ok_iff (s : State) (k : Byte) (b : Bool) :
    s.testKey k = .ok b ↔ ∃ h : k.toNat < 16, b = s.keys[k.toNat] := by
  simp only [State.testKey]
  split <;> simp_all [eq_comm]

/-- A key number faults exactly when it is above 15. -/
theorem State.testKey_eq_error_iff (s : State) (k : Byte) (f : Fault) :
    s.testKey k = .error f ↔ 15 < k.toNat ∧ f = .keyIndexOutOfRange := by
  simp only [State.testKey]
  split
  · simp only [reduceCtorEq, false_iff, not_and]; omega
  · simp only [Except.error.injEq, eq_comm]
    exact ⟨fun h => ⟨by omega, h⟩, fun h => h.2⟩

/-- There is no least key down exactly when every key is up. -/
theorem State.leastKey_eq_none_iff (s : State) : s.leastKey = none ↔ ∀ k : Fin 16, s.keys[k] = false := by
  simp [State.leastKey]

/-- The least key down is down, and every key before it is up. -/
theorem State.leastKey_eq_some_iff (s : State) (k : Fin 16) :
    s.leastKey = some k ↔ s.keys[k] = true ∧ ∀ j : Fin 16, j < k → s.keys[j] = false := by
  simp only [State.leastKey]
  constructor
  · intro h
    obtain ⟨hk, as, bs, hab, hall⟩ := List.find?_eq_some_iff_append.1 h
    refine ⟨hk, fun j hj => ?_⟩
    have hmem : j ∈ as := by
      have hj' : j ∈ as ++ k :: bs := hab ▸ List.mem_finRange j
      rcases List.mem_append.1 hj' with h1 | h1
      · exact h1
      · exfalso
        have hs : (as ++ k :: bs).Pairwise (· < ·) := hab ▸ List.pairwise_lt_finRange 16
        have hs2 := (List.pairwise_append.1 hs).2.1
        rcases List.mem_cons.1 h1 with rfl | h2
        · exact lt_irrefl _ hj
        · exact absurd (List.rel_of_pairwise_cons hs2 h2) (not_lt.2 (le_of_lt hj))
    simpa using hall j hmem
  · rintro ⟨hk, hlow⟩
    cases hf : (List.finRange 16).find? fun j => s.keys[j] with
    | none =>
      rw [List.find?_eq_none] at hf
      exact absurd hk (by simpa using hf k (List.mem_finRange k))
    | some j =>
      obtain ⟨hj, as, bs, hab, hall⟩ := List.find?_eq_some_iff_append.1 hf
      have hjk : ¬ j < k := fun h => by simp [hlow j h] at hj
      have hkj : ¬ k < j := fun h => by
        have hk' : k ∈ as ++ j :: bs := hab ▸ List.mem_finRange k
        rcases List.mem_append.1 hk' with h1 | h1
        · simpa [hk] using hall k h1
        · have hs : (as ++ j :: bs).Pairwise (· < ·) := hab ▸ List.pairwise_lt_finRange 16
          have hs2 := (List.pairwise_append.1 hs).2.1
          rcases List.mem_cons.1 h1 with rfl | h2
          · exact lt_irrefl _ h
          · exact absurd (List.rel_of_pairwise_cons hs2 h2) (not_lt.2 (le_of_lt h))
      exact congrArg some (le_antisymm (not_lt.1 hkj) (not_lt.1 hjk))

/-! ### The block of registers V0 to Vx -/

@[simp] theorem State.blockValues_length (s : State) (x : Reg) : (s.blockValues x).length = x.toNat + 1 := by
  simp [State.blockValues, blockLength]

/-- Byte `k` of the block is the value of register `k`. -/
theorem State.blockValues_getD (s : State) (x k : Reg) (h : k.toNat ≤ x.toNat) :
    (s.blockValues x).getD k.toNat 0x00#8 = s.getV k := by
  have hk : k.toNat < blockLength x := by simp only [blockLength]; omega
  simp [State.blockValues, hk]

/-- Loading bytes into registers from number `k` up: register `k + j` gets byte `j`, every other register is as before. -/
theorem State.getV_setBlock (s : State) (k : Nat) (bs : List Byte) (h : k + bs.length ≤ 16) (r : Reg) :
    (s.setBlock k bs).getV r =
      if k ≤ r.toNat ∧ r.toNat < k + bs.length then bs.getD (r.toNat - k) 0x00#8 else s.getV r := by
  induction bs generalizing s k with
  | nil => simp [State.setBlock]
  | cons b bs ih =>
    simp only [List.length_cons] at h
    simp only [State.setBlock, ih _ (k + 1) (by omega), List.length_cons]
    by_cases hr : r.toNat = k
    · have : r = BitVec.ofNat 4 k := by
        apply BitVec.eq_of_toNat_eq; simp only [BitVec.toNat_ofNat]; omega
      rw [if_neg (by omega), if_pos (by omega), this]
      have hk' : (BitVec.ofNat 4 k).toNat - k = 0 := by simp only [BitVec.toNat_ofNat]; omega
      rw [hk', List.getD_cons_zero, State.getV_setV_self]
    · by_cases hin : k + 1 ≤ r.toNat ∧ r.toNat < k + 1 + bs.length
      · have hsub : r.toNat - k = (r.toNat - (k + 1)) + 1 := by omega
        rw [if_pos hin, if_pos (by omega), hsub, List.getD_cons_succ]
      · have hne : r ≠ BitVec.ofNat 4 k := by
          rintro rfl; simp only [BitVec.toNat_ofNat] at hr; omega
        rw [if_neg hin, if_neg (by omega), State.getV_setV_ne _ _ hne]

/-- Loading registers changes registers alone. -/
theorem State.setBlock_others (s : State) (k : Nat) (bs : List Byte) : s.setBlock k bs = { s with v := (s.setBlock k bs).v } := by
  induction bs generalizing s k with
  | nil => rfl
  | cons b bs ih => rw [State.setBlock, ih]; rfl

/-! ### The end of an execute phase -/

/-- What a finished execute phase answers. -/
theorem finish_eq_next_iff (r : Except Fault State) (t : State) : finish r = .next t ↔ r = .ok t := by
  cases r <;> simp [finish, raise]

/-- When a finished execute phase faults. -/
theorem finish_eq_fault_iff (r : Except Fault State) (k : Fault) : finish r = .fault k ↔ r = .error k := by
  cases r <;> simp [finish, raise]

/-! ### One step -/

/-- What one step can do when it answers a next state: run the decoded instruction, or pass over a word that is none. -/
theorem step_cases {s t : State} (h : step s = .next t) :
    (∃ w i, s.fetch = .ok w ∧ decode w = .ok i ∧ exec i s.advance = .next t) ∨
    (∃ w e, s.fetch = .ok w ∧ decode w = .error e ∧ t = s.advance) := by
  simp only [step, State.cycle] at h
  cases hf : s.fetch with
  | error k => simp [hf, StepResult.outcome] at h
  | ok w =>
    cases hd : decode w with
    | error e =>
      simp only [hf, hd, StepResult.outcome, Host.Outcome.next.injEq] at h
      exact .inr ⟨w, e, rfl, hd, h.symm⟩
    | ok i =>
      refine .inl ⟨w, i, rfl, hd, ?_⟩
      cases he : exec i s.advance <;> simp_all [StepResult.outcome, StepResult.ofOutcome]

end Sys2Proof.Machine
end

