-- ==== Sys2Proof/Machine/Assembler.lean ====
section
/-! DEFINITION. The customary spelling of the instructions (30_encoding.md R74, R84): labels only, on which nothing in
the machine depends (assumption 20). -/

namespace Sys2Proof.Machine

/-- The mnemonics of R74. -/
inductive Mnemonic where
  | CLS | RET | SYS | JP | CALL | SE | SNE | LD | ADD | OR | AND | XOR | SUB | SHR | SUBN | SHL | RND | DRW | SKP | SKNP
deriving DecidableEq, Repr

/-- An operand as it is written (R84): a register, a number, or one of the fixed operand words. -/
inductive AsmOperand where
  | reg (x : Reg)
  | addr (a : Addr)
  | byte (nn : Byte)
  | height (n : Nibble)
  | wordI | wordDT | wordST | wordK | wordF | wordB | wordAtI
deriving DecidableEq, Repr

/-- One line of assembler text. -/
structure AsmLine where
  mnemonic : Mnemonic
  operands : List AsmOperand
deriving DecidableEq, Repr

/-- An instruction as it is written (R74). -/
def asmOf : Instr → AsmLine
  | .cls => ⟨.CLS, []⟩
  | .ret => ⟨.RET, []⟩
  | .sys a => ⟨.SYS, [.addr a]⟩
  | .jp a => ⟨.JP, [.addr a]⟩
  | .call a => ⟨.CALL, [.addr a]⟩
  | .seImm x nn => ⟨.SE, [.reg x, .byte nn]⟩
  | .sneImm x nn => ⟨.SNE, [.reg x, .byte nn]⟩
  | .seReg x y => ⟨.SE, [.reg x, .reg y]⟩
  | .sneReg x y => ⟨.SNE, [.reg x, .reg y]⟩
  | .ldImm x nn => ⟨.LD, [.reg x, .byte nn]⟩
  | .addImm x nn => ⟨.ADD, [.reg x, .byte nn]⟩
  | .ldReg x y => ⟨.LD, [.reg x, .reg y]⟩
  | .orReg x y => ⟨.OR, [.reg x, .reg y]⟩
  | .andReg x y => ⟨.AND, [.reg x, .reg y]⟩
  | .xorReg x y => ⟨.XOR, [.reg x, .reg y]⟩
  | .addReg x y => ⟨.ADD, [.reg x, .reg y]⟩
  | .sub x y => ⟨.SUB, [.reg x, .reg y]⟩
  | .shr x => ⟨.SHR, [.reg x]⟩
  | .subn x y => ⟨.SUBN, [.reg x, .reg y]⟩
  | .shl x => ⟨.SHL, [.reg x]⟩
  | .ldI a => ⟨.LD, [.wordI, .addr a]⟩
  | .jpV0 a => ⟨.JP, [.reg 0x0#4, .addr a]⟩
  | .rnd x nn => ⟨.RND, [.reg x, .byte nn]⟩
  | .drw x y n => ⟨.DRW, [.reg x, .reg y, .height n]⟩
  | .skp x => ⟨.SKP, [.reg x]⟩
  | .sknp x => ⟨.SKNP, [.reg x]⟩
  | .ldVxDt x => ⟨.LD, [.reg x, .wordDT]⟩
  | .ldVxK x => ⟨.LD, [.reg x, .wordK]⟩
  | .ldDtVx x => ⟨.LD, [.wordDT, .reg x]⟩
  | .ldStVx x => ⟨.LD, [.wordST, .reg x]⟩
  | .addI x => ⟨.ADD, [.wordI, .reg x]⟩
  | .ldF x => ⟨.LD, [.wordF, .reg x]⟩
  | .ldB x => ⟨.LD, [.wordB, .reg x]⟩
  | .stRegs x => ⟨.LD, [.wordAtI, .reg x]⟩
  | .ldRegs x => ⟨.LD, [.reg x, .wordAtI]⟩

/-- The instruction a line writes, if it writes one. -/
def assemble : AsmLine → Option Instr
  | ⟨.CLS, []⟩ => some .cls
  | ⟨.RET, []⟩ => some .ret
  | ⟨.SYS, [.addr a]⟩ => some (.sys a)
  | ⟨.JP, [.addr a]⟩ => some (.jp a)
  | ⟨.JP, [.reg x, .addr a]⟩ => if x = 0x0#4 then some (.jpV0 a) else none
  | ⟨.CALL, [.addr a]⟩ => some (.call a)
  | ⟨.SE, [.reg x, .byte nn]⟩ => some (.seImm x nn)
  | ⟨.SNE, [.reg x, .byte nn]⟩ => some (.sneImm x nn)
  | ⟨.SE, [.reg x, .reg y]⟩ => some (.seReg x y)
  | ⟨.SNE, [.reg x, .reg y]⟩ => some (.sneReg x y)
  | ⟨.LD, [.reg x, .byte nn]⟩ => some (.ldImm x nn)
  | ⟨.ADD, [.reg x, .byte nn]⟩ => some (.addImm x nn)
  | ⟨.LD, [.reg x, .reg y]⟩ => some (.ldReg x y)
  | ⟨.OR, [.reg x, .reg y]⟩ => some (.orReg x y)
  | ⟨.AND, [.reg x, .reg y]⟩ => some (.andReg x y)
  | ⟨.XOR, [.reg x, .reg y]⟩ => some (.xorReg x y)
  | ⟨.ADD, [.reg x, .reg y]⟩ => some (.addReg x y)
  | ⟨.SUB, [.reg x, .reg y]⟩ => some (.sub x y)
  | ⟨.SHR, [.reg x]⟩ => some (.shr x)
  | ⟨.SUBN, [.reg x, .reg y]⟩ => some (.subn x y)
  | ⟨.SHL, [.reg x]⟩ => some (.shl x)
  | ⟨.LD, [.wordI, .addr a]⟩ => some (.ldI a)
  | ⟨.RND, [.reg x, .byte nn]⟩ => some (.rnd x nn)
  | ⟨.DRW, [.reg x, .reg y, .height n]⟩ => some (.drw x y n)
  | ⟨.SKP, [.reg x]⟩ => some (.skp x)
  | ⟨.SKNP, [.reg x]⟩ => some (.sknp x)
  | ⟨.LD, [.reg x, .wordDT]⟩ => some (.ldVxDt x)
  | ⟨.LD, [.reg x, .wordK]⟩ => some (.ldVxK x)
  | ⟨.LD, [.wordDT, .reg x]⟩ => some (.ldDtVx x)
  | ⟨.LD, [.wordST, .reg x]⟩ => some (.ldStVx x)
  | ⟨.ADD, [.wordI, .reg x]⟩ => some (.addI x)
  | ⟨.LD, [.wordF, .reg x]⟩ => some (.ldF x)
  | ⟨.LD, [.wordB, .reg x]⟩ => some (.ldB x)
  | ⟨.LD, [.wordAtI, .reg x]⟩ => some (.stRegs x)
  | ⟨.LD, [.reg x, .wordAtI]⟩ => some (.ldRegs x)
  | _ => none

/-- The text of a mnemonic. -/
def Mnemonic.text : Mnemonic → String
  | .CLS => "CLS" | .RET => "RET" | .SYS => "SYS" | .JP => "JP" | .CALL => "CALL" | .SE => "SE" | .SNE => "SNE"
  | .LD => "LD" | .ADD => "ADD" | .OR => "OR" | .AND => "AND" | .XOR => "XOR" | .SUB => "SUB" | .SHR => "SHR"
  | .SUBN => "SUBN" | .SHL => "SHL" | .RND => "RND" | .DRW => "DRW" | .SKP => "SKP" | .SKNP => "SKNP"

/-- The hexadecimal digit of a nibble, as a register's name has it: V0 to VF (10_state.md R21). -/
def hexDigit (n : Nibble) : String :=
  ["0", "1", "2", "3", "4", "5", "6", "7", "8", "9", "A", "B", "C", "D", "E", "F"].getD n.toNat "?"

/-- The text of an operand (R84): `V3`, `0x2A0`, `0x7F`, `0x5`, `I`, `DT`. -/
def AsmOperand.text : AsmOperand → String
  | .reg x => "V" ++ hexDigit x
  | .addr a => "0x" ++ hexDigit (a.extractLsb' 8 4) ++ hexDigit (a.extractLsb' 4 4) ++ hexDigit (a.extractLsb' 0 4)
  | .byte b => "0x" ++ hexDigit (b.extractLsb' 4 4) ++ hexDigit (b.extractLsb' 0 4)
  | .height n => "0x" ++ hexDigit n
  | .wordI => "I" | .wordDT => "DT" | .wordST => "ST" | .wordK => "K" | .wordF => "F" | .wordB => "B" | .wordAtI => "[I]"

/-- One line as text: the mnemonic, then the operands with a comma and a space between them (R84). -/
def AsmLine.text (l : AsmLine) : String :=
  match l.operands with
  | [] => l.mnemonic.text
  | ops => l.mnemonic.text ++ " " ++ ", ".intercalate (ops.map AsmOperand.text)

end Sys2Proof.Machine
end

