-- ==== Sys2Proof/Laws/PerInstr.lean ====
section
/-! SUPPORT. Statements for all instructions, one lemma per constructor. Family `AsmRoundTrip`: what is written for an
instruction reads back as that instruction, so the spelling of 30_encoding.md R74 names each instruction with its operands
uniquely ("round-trips to a human-readable mnemonic uniquely identifying the instruction and its operands"). -/

namespace Sys2Proof.Laws.AsmRoundTrip

open Sys2Proof.Machine

/-- An instruction is read back from how it is written. -/
def Statement (i : Instr) : Prop := assemble (asmOf i) = some i

theorem cls : Statement (.cls) := rfl

theorem ret : Statement (.ret) := rfl

theorem sys (addr : Addr) : Statement (.sys addr) := rfl

theorem jp (addr : Addr) : Statement (.jp addr) := rfl

theorem call (addr : Addr) : Statement (.call addr) := rfl

theorem seImm (x : Reg) (nn : Byte) : Statement (.seImm x nn) := rfl

theorem sneImm (x : Reg) (nn : Byte) : Statement (.sneImm x nn) := rfl

theorem seReg (x y : Reg) : Statement (.seReg x y) := rfl

theorem sneReg (x y : Reg) : Statement (.sneReg x y) := rfl

theorem ldImm (x : Reg) (nn : Byte) : Statement (.ldImm x nn) := rfl

theorem addImm (x : Reg) (nn : Byte) : Statement (.addImm x nn) := rfl

theorem ldReg (x y : Reg) : Statement (.ldReg x y) := rfl

theorem orReg (x y : Reg) : Statement (.orReg x y) := rfl

theorem andReg (x y : Reg) : Statement (.andReg x y) := rfl

theorem xorReg (x y : Reg) : Statement (.xorReg x y) := rfl

theorem addReg (x y : Reg) : Statement (.addReg x y) := rfl

theorem sub (x y : Reg) : Statement (.sub x y) := rfl

theorem shr (x : Reg) : Statement (.shr x) := rfl

theorem subn (x y : Reg) : Statement (.subn x y) := rfl

theorem shl (x : Reg) : Statement (.shl x) := rfl

theorem ldI (addr : Addr) : Statement (.ldI addr) := rfl

theorem jpV0 (addr : Addr) : Statement (.jpV0 addr) := rfl

theorem rnd (x : Reg) (nn : Byte) : Statement (.rnd x nn) := rfl

theorem drw (x y : Reg) (n : Nibble) : Statement (.drw x y n) := rfl

theorem skp (x : Reg) : Statement (.skp x) := rfl

theorem sknp (x : Reg) : Statement (.sknp x) := rfl

theorem ldVxDt (x : Reg) : Statement (.ldVxDt x) := rfl

theorem ldVxK (x : Reg) : Statement (.ldVxK x) := rfl

theorem ldDtVx (x : Reg) : Statement (.ldDtVx x) := rfl

theorem ldStVx (x : Reg) : Statement (.ldStVx x) := rfl

theorem addI (x : Reg) : Statement (.addI x) := rfl

theorem ldF (x : Reg) : Statement (.ldF x) := rfl

theorem ldB (x : Reg) : Statement (.ldB x) := rfl

theorem stRegs (x : Reg) : Statement (.stRegs x) := rfl

theorem ldRegs (x : Reg) : Statement (.ldRegs x) := rfl

end Sys2Proof.Laws.AsmRoundTrip
end

