-- ==== Sys2Proof/Laws/Safety.lean ====
section
/-! SUPPORT. The terms in which claims speak of a step compose: what two steps in a row leave unchanged. -/

namespace Sys2Proof.Machine

theorem SamePart.refl (p : Part) (s : State) : SamePart p s s := by
  cases p <;> simp [SamePart]

theorem SamePart.trans {p : Part} {s t u : State} (h : SamePart p s t) (h' : SamePart p t u) : SamePart p s u := by
  cases p <;> simp only [SamePart] at * <;> intros <;> simp only [h, h']

theorem SamePart.symm {p : Part} {s t : State} (h : SamePart p s t) : SamePart p t s := by
  cases p <;> simp only [SamePart] at * <;> intros <;> simp only [h]

/-- What is kept with few exceptions is kept with more. -/
theorem KeepsAllBut.mono {ps qs : List Part} {s t : State} (h : KeepsAllBut ps s t) (hle : ∀ p ∈ ps, p ∈ qs) :
    KeepsAllBut qs s t :=
  fun p hp => h p fun hm => hp (hle p hm)

/-- What two steps in a row both keep, the two keep together. -/
theorem KeepsAllBut.trans {ps : List Part} {s t u : State} (h : KeepsAllBut ps s t) (h' : KeepsAllBut ps t u) :
    KeepsAllBut ps s u :=
  fun p hp => (h p hp).trans (h' p hp)

end Sys2Proof.Machine
end

