-- ==== Sys2Proof/Tests/Slice0.lean ====
section
/-! SUPPORT. Small tests. Every expected value is from spec/ (95_test_vectors.md, its row named, or the rule named), none
from a run of the model. The last part gives, for every obligation with hypotheses, a state and operands that meet them. -/

namespace Sys2Proof.Tests

open Sys2Proof.Machine

/-! ### Helpers -/

/-- The outcome is a next state with the property. -/
def ends (o : Host.Outcome State Fault Refusal) (p : State → Bool) : Bool :=
  match o with
  | .next t => p t
  | .fault _ => false
  | .refused _ => false

/-- The outcome is the fault. -/
def faults (o : Host.Outcome State Fault Refusal) (k : Fault) : Bool :=
  match o with
  | .next _ => false
  | .fault f => f == k
  | .refused _ => false

/-- One step on the word from the state. -/
def run (w : Nat) (s : State) : Host.Outcome State Fault Refusal := step (s.withFetchWord 16 w)

/-- The reset state with two registers set. -/
def with2 (x : Reg) (a : Byte) (y : Reg) (b : Byte) : State := (State.reset.setV x a).setV y b

/-- The state with a byte of memory set. -/
def poke (s : State) (a : Nat) (b : Byte) : State := s.setMem (s.mem.write a b)

/-- The state with a key down. -/
def press (k : Fin 16) (s : State) : State := s.putKey k true

/-- The state with a number of stack slots in use. -/
def depth (k : Fin 17) : State := { State.reset with sp := k }

/-- The state with the pixel in column `x` and row `y` on. -/
def lit (s : State) (x : Fin 64) (y : Fin 32) : State := s.setDisplay (Display.flip s.display y x)

/-- The number of pixels that are on. -/
def countOn (s : State) : Nat := (s.display.toList.map fun row => row.toList.countP id).sum

/-! ### WellFormed: the ill-formed terms are refused, their neighbours are not (R76) -/

theorem test_wellFormed_sys_E0 : (Instr.sys 0x0E0#12).wellFormed = false := by decide
theorem test_wellFormed_sys_EE : (Instr.sys 0x0EE#12).wellFormed = false := by decide
theorem test_wellFormed_others : (Instr.sys 0x0E1#12).wellFormed = true ∧ (Instr.sys 0xEEE#12).wellFormed = true ∧
    Instr.cls.wellFormed = true ∧ (Instr.shr 0xF#4).wellFormed = true := by decide

/-! ### Decode: a word for every constructor, its bits written out from 30_encoding.md R72, R74 (section 2.0 of 95) -/

theorem test_decode_family0 :
    decode 0b0000000011100000#16 = .ok .cls ∧ decode 0b0000000011101110#16 = .ok .ret ∧
    decode 0b0000000000000000#16 = .ok (.sys 0x000#12) ∧ decode 0b0000000111100000#16 = .ok (.sys 0x1E0#12) ∧
    decode 0b0000111111101110#16 = .ok (.sys 0xFEE#12) := by decide

theorem test_decode_jumps :
    decode 0b0001101010111100#16 = .ok (.jp 0xABC#12) ∧ decode 0b0010101010111100#16 = .ok (.call 0xABC#12) ∧
    decode 0b1011000100100011#16 = .ok (.jpV0 0x123#12) := by decide

theorem test_decode_skips :
    decode 0b0011101001111111#16 = .ok (.seImm 0xA#4 0x7F#8) ∧
    decode 0b0100101001111111#16 = .ok (.sneImm 0xA#4 0x7F#8) ∧
    decode 0b0101000100100000#16 = .ok (.seReg 0x1#4 0x2#4) ∧ decode 0b0101000100100111#16 = .ok (.seReg 0x1#4 0x2#4) ∧
    decode 0b1001101010110000#16 = .ok (.sneReg 0xA#4 0xB#4) ∧ decode 0b1001101010110011#16 = .ok (.sneReg 0xA#4 0xB#4) ∧
    decode 0b1110000110011110#16 = .ok (.skp 0x1#4) ∧ decode 0b1110000110100001#16 = .ok (.sknp 0x1#4) := by decide

theorem test_decode_immediate :
    decode 0b0110110011111111#16 = .ok (.ldImm 0xC#4 0xFF#8) ∧
    decode 0b0111110000000001#16 = .ok (.addImm 0xC#4 0x01#8) := by decide

theorem test_decode_family8 :
    decode 0b1000000100100000#16 = .ok (.ldReg 0x1#4 0x2#4) ∧ decode 0b1000000100100001#16 = .ok (.orReg 0x1#4 0x2#4) ∧
    decode 0b1000000100100010#16 = .ok (.andReg 0x1#4 0x2#4) ∧ decode 0b1000000100100011#16 = .ok (.xorReg 0x1#4 0x2#4) ∧
    decode 0b1000000100100100#16 = .ok (.addReg 0x1#4 0x2#4) ∧ decode 0b1000000100100101#16 = .ok (.sub 0x1#4 0x2#4) ∧
    decode 0b1000000100100110#16 = .ok (.shr 0x1#4) ∧ decode 0b1000000100100111#16 = .ok (.subn 0x1#4 0x2#4) ∧
    decode 0b1000000100101110#16 = .ok (.shl 0x1#4) := by decide

theorem test_decode_index_random_draw :
    decode 0b1010000100100011#16 = .ok (.ldI 0x123#12) ∧ decode 0b1100000100001111#16 = .ok (.rnd 0x1#4 0x0F#8) ∧
    decode 0b1101000100100101#16 = .ok (.drw 0x1#4 0x2#4 0x5#4) := by decide

theorem test_decode_familyF :
    decode 0b1111000000000111#16 = .ok (.ldVxDt 0x0#4) ∧ decode 0b1111001100001010#16 = .ok (.ldVxK 0x3#4) ∧
    decode 0b1111001100010101#16 = .ok (.ldDtVx 0x3#4) ∧ decode 0b1111001100011000#16 = .ok (.ldStVx 0x3#4) ∧
    decode 0b1111001000011110#16 = .ok (.addI 0x2#4) ∧ decode 0b1111000000101001#16 = .ok (.ldF 0x0#4) ∧
    decode 0b1111000000110011#16 = .ok (.ldB 0x0#4) ∧ decode 0b1111000101010101#16 = .ok (.stRegs 0x1#4) ∧
    decode 0b1111111101100101#16 = .ok (.ldRegs 0xF#4) := by decide

theorem test_decode_illegal :
    decode 0x8128#16 = .error (.unknownWord 0x8128#16) ∧ decode 0x812F#16 = .error (.unknownWord 0x812F#16) ∧
    decode 0xE000#16 = .error (.unknownWord 0xE000#16) ∧ decode 0xE19F#16 = .error (.unknownWord 0xE19F#16) ∧
    decode 0xF000#16 = .error (.unknownWord 0xF000#16) ∧ decode 0xF0FF#16 = .error (.unknownWord 0xF0FF#16) ∧
    decode 0xF175#16 = .error (.unknownWord 0xF175#16) ∧ decode 0xF090#16 = .error (.unknownWord 0xF090#16) := by decide

theorem test_decode_fields : fieldN1 0xD7A5#16 = 0xD#4 ∧ fieldX 0xD7A5#16 = 0x7#4 ∧ fieldY 0xD7A5#16 = 0xA#4 ∧
    fieldN 0xD7A5#16 = 0x5#4 ∧ fieldNN 0xD7A5#16 = 0xA5#8 ∧ fieldAddr 0xD7A5#16 = 0x7A5#12 := by decide

theorem test_decode_bytes : decodeBytes [0x1A#8, 0xBC#8, 0x00#8] = .ok (.jp 0xABC#12, [0x00#8]) ∧
    decodeBytes [0x1A#8] = .error .truncated := by decide

theorem test_encode : encode (.drw 0x7#4 0xA#4 0x5#4) = 0xD7A5#16 ∧ encode (.shl 0x1#4) = 0x810E#16 ∧
    encode (.stRegs 0xF#4) = 0xFF55#16 ∧ encodeBytes (.jp 0x20C#12) = [0x12#8, 0x0C#8] := by decide

theorem test_decodeTableWord : decodeTableWord 16 0x8124 = some (.addReg 0x1#4 0x2#4) ∧
    decodeTableWord 16 0x8128 = none := by decide

/-! ### Reset and memory -/

/-- 20_memory.md R52: glyph 0 first, glyph F last, zero after it. -/
theorem test_font : State.reset.mem.read 0x000 = 0xF0#8 ∧ State.reset.mem.read 0x001 = 0x90#8 ∧
    State.reset.mem.read 0x04B = 0xF0#8 ∧ State.reset.mem.read 0x04F = 0x80#8 ∧ State.reset.mem.read 0x050 = 0x00#8 ∧
    State.reset.mem.read 0xFFF = 0x00#8 := by decide

/-- 20_memory.md R55: a store is read back; storing the reset content is as if nothing had been stored. -/
theorem test_memory_write : (poke State.reset 0x300 0x12#8).mem.read 0x300 = 0x12#8 ∧
    (poke (poke State.reset 0x300 0x12#8) 0x300 0x00#8).mem = [] := by decide

/-- 70_reset_and_hazards.md R232: with nothing loaded, the word at 0x200 is the no-op 0x0000. -/
theorem test_reset_step : ends (step State.reset) (fun t => t.pc == 0x202#16) = true := by decide

/-! ### One step: family 0, jump, call -/

/-- V-0a. -/
theorem test_cls : ends (run 0x00E0 (lit (lit (State.reset.setV vF 0x07#8) 0 0) 63 31))
    (fun t => countOn t == 0 && t.getV vF == 0x07#8) = true := by decide
/-- V-0h: the slot is not cleared. -/
theorem test_ret : ends (run 0x00EE { depth 1 with stack := State.reset.stack.set 0 0x0202#16, pc := 0x300#16 })
    (fun t => t.pc == 0x202#16 && t.sp.val == 0 && t.stack[0] == 0x0202#16) = true := by decide
/-- V-F6. -/
theorem test_ret_empty : faults (run 0x00EE State.reset) .stackUnderflow = true := by decide
/-- V-0c. -/
theorem test_sys : ends (run 0x0ABC State.reset)
    (fun t => t == (State.reset.withFetchWord 16 0x0ABC).setPc 0x202#16) = true := by decide
/-- V-0f. -/
theorem test_jp : ends (run 0x1FFF State.reset) (fun t => t.pc == 0xFFF#16 && t.sp.val == 0) = true := by decide
/-- V-0i: the sixteenth entry fits. -/
theorem test_call : ends (run 0x2300 (depth 15))
    (fun t => t.pc == 0x300#16 && t.sp.val == 16 && t.stack[15] == 0x0202#16 && t.stack[14] == 0x0000#16) = true := by
  decide
/-- V-F5, its last step. -/
theorem test_call_full : faults (run 0x2200 (depth 16)) .stackOverflow = true := by decide

/-! ### Skips -/

/-- V-1a, V-1b. -/
theorem test_seImm : ends (run 0x3A7F (State.reset.setV 0xA#4 0x7F#8)) (fun t => t.pc == 0x204#16) = true ∧
    ends (run 0x3A7F (State.reset.setV 0xA#4 0x7E#8)) (fun t => t.pc == 0x202#16) = true := by decide
/-- V-1m: at the top of memory. -/
theorem test_seImm_top : ends (run 0x3000 (State.reset.setPc 0xFFE#16)) (fun t => t.pc == 0x1002#16) = true := by decide
/-- V-1c, V-1d. -/
theorem test_sneImm : ends (run 0x4A7F (State.reset.setV 0xA#4 0x7F#8)) (fun t => t.pc == 0x202#16) = true ∧
    ends (run 0x4A7F (State.reset.setV 0xA#4 0x7E#8)) (fun t => t.pc == 0x204#16) = true := by decide
/-- V-1h, V-1f. -/
theorem test_seReg : ends (run 0x512F (with2 0x1#4 0x33#8 0x2#4 0x33#8)) (fun t => t.pc == 0x204#16) = true ∧
    ends (run 0x5120 (with2 0x1#4 0x33#8 0x2#4 0x34#8)) (fun t => t.pc == 0x202#16) = true := by decide
/-- V-1i, V-1j. -/
theorem test_sneReg : ends (run 0x9120 (with2 0x1#4 0x33#8 0x2#4 0x33#8)) (fun t => t.pc == 0x202#16) = true ∧
    ends (run 0x9120 (with2 0x1#4 0x33#8 0x2#4 0x34#8)) (fun t => t.pc == 0x204#16) = true := by decide
/-- V-6b, V-6e. -/
theorem test_skp : ends (run 0xE19E (press 8 (State.reset.setV 0x1#4 0x07#8))) (fun t => t.pc == 0x202#16) = true ∧
    ends (run 0xE19E (press 15 (State.reset.setV 0x1#4 0x0F#8))) (fun t => t.pc == 0x204#16) = true := by decide
/-- V-6f. -/
theorem test_skp_range : faults (run 0xE19E (State.reset.setV 0x1#4 0x10#8)) .keyIndexOutOfRange = true := by decide
/-- V-6c, V-6d. -/
theorem test_sknp : ends (run 0xE1A1 (press 7 (State.reset.setV 0x1#4 0x07#8))) (fun t => t.pc == 0x202#16) = true ∧
    ends (run 0xE1A1 (State.reset.setV 0x1#4 0x07#8)) (fun t => t.pc == 0x204#16) = true := by decide
/-- V-F7. -/
theorem test_sknp_range : faults (run 0xE1A1 (State.reset.setV 0x1#4 0x10#8)) .keyIndexOutOfRange = true := by decide

/-! ### Immediates and the register ALU -/

/-- V-2b. -/
theorem test_ldImm : ends (run 0x6F55 State.reset) (fun t => t.getV vF == 0x55#8) = true := by decide
/-- V-2c, V-2f. -/
theorem test_addImm : ends (run 0x7C01 (State.reset.setV 0xC#4 0xFF#8))
      (fun t => t.getV 0xC#4 == 0x00#8 && t.getV vF == 0x00#8) = true ∧
    ends (run 0x7F01 (State.reset.setV vF 0x01#8)) (fun t => t.getV vF == 0x02#8) = true := by decide
/-- V-3a. -/
theorem test_ldReg : ends (run 0x8120 ((with2 0x1#4 0x11#8 0x2#4 0x7C#8).setV vF 0x09#8))
    (fun t => t.getV 0x1#4 == 0x7C#8 && t.getV 0x2#4 == 0x7C#8 && t.getV vF == 0x09#8) = true := by decide
/-- V-3b. -/
theorem test_orReg : ends (run 0x8121 ((with2 0x1#4 0xF0#8 0x2#4 0x3C#8).setV vF 0x09#8))
    (fun t => t.getV 0x1#4 == 0xFC#8 && t.getV 0x2#4 == 0x3C#8 && t.getV vF == 0x09#8) = true := by decide
/-- V-3c. -/
theorem test_andReg : ends (run 0x8122 ((with2 0x1#4 0xF0#8 0x2#4 0x3C#8).setV vF 0x09#8))
    (fun t => t.getV 0x1#4 == 0x30#8 && t.getV 0x2#4 == 0x3C#8 && t.getV vF == 0x09#8) = true := by decide
/-- V-3d. -/
theorem test_xorReg : ends (run 0x8123 ((with2 0x1#4 0xF0#8 0x2#4 0x3C#8).setV vF 0x09#8))
    (fun t => t.getV 0x1#4 == 0xCC#8 && t.getV 0x2#4 == 0x3C#8 && t.getV vF == 0x09#8) = true := by decide
/-- V-3h, V-3i. -/
theorem test_addReg : ends (run 0x8124 (with2 0x1#4 0x80#8 0x2#4 0x80#8))
      (fun t => t.getV 0x1#4 == 0x00#8 && t.getV vF == 0x01#8) = true ∧
    ends (run 0x8124 (with2 0x1#4 0xFE#8 0x2#4 0x01#8))
      (fun t => t.getV 0x1#4 == 0xFF#8 && t.getV vF == 0x00#8) = true := by decide
/-- V-3k, V-3l: VF as destination, VF as source. -/
theorem test_addReg_VF : ends (run 0x8F24 (with2 vF 0x10#8 0x2#4 0x02#8)) (fun t => t.getV vF == 0x00#8) = true ∧
    ends (run 0x81F4 (with2 0x1#4 0x10#8 vF 0x01#8))
      (fun t => t.getV 0x1#4 == 0x11#8 && t.getV vF == 0x00#8) = true := by decide
/-- V-3n, V-3o. -/
theorem test_sub : ends (run 0x8125 (with2 0x1#4 0x03#8 0x2#4 0x05#8))
      (fun t => t.getV 0x1#4 == 0xFE#8 && t.getV vF == 0x00#8) = true ∧
    ends (run 0x8125 (with2 0x1#4 0x07#8 0x2#4 0x07#8))
      (fun t => t.getV 0x1#4 == 0x00#8 && t.getV vF == 0x01#8) = true := by decide
/-- V-3q. -/
theorem test_sub_VF : ends (run 0x8F25 (with2 vF 0x05#8 0x2#4 0x03#8)) (fun t => t.getV vF == 0x01#8) = true := by decide
/-- V-3v, V-3w. -/
theorem test_shr : ends (run 0x8126 (with2 0x1#4 0x05#8 0x2#4 0xFF#8))
      (fun t => t.getV 0x1#4 == 0x02#8 && t.getV 0x2#4 == 0xFF#8 && t.getV vF == 0x01#8) = true ∧
    ends (run 0x8F06 (State.reset.setV vF 0x02#8)) (fun t => t.getV vF == 0x00#8) = true := by decide
/-- V-3x, V-3y. -/
theorem test_subn : ends (run 0x8127 (with2 0x1#4 0x03#8 0x2#4 0x05#8))
      (fun t => t.getV 0x1#4 == 0x02#8 && t.getV 0x2#4 == 0x05#8 && t.getV vF == 0x01#8) = true ∧
    ends (run 0x8127 (with2 0x1#4 0x05#8 0x2#4 0x03#8))
      (fun t => t.getV 0x1#4 == 0xFE#8 && t.getV vF == 0x00#8) = true := by decide
/-- V-3A, V-3D. -/
theorem test_shl : ends (run 0x810E (State.reset.setV 0x1#4 0x81#8))
      (fun t => t.getV 0x1#4 == 0x02#8 && t.getV vF == 0x01#8) = true ∧
    ends (run 0x81FE (with2 0x1#4 0x81#8 vF 0x55#8))
      (fun t => t.getV 0x1#4 == 0x02#8 && t.getV vF == 0x01#8) = true := by decide

/-! ### Index, jump with offset, random -/

/-- V-4a. -/
theorem test_ldI : ends (run 0xA123 (State.reset.setI 0xFFFF#16)) (fun t => t.i == 0x0123#16) = true := by decide
/-- E8: V0, whatever nibble the address begins with. -/
theorem test_jpV0 : ends (run 0xB2FB (with2 0x0#4 0x05#8 0x2#4 0x40#8)) (fun t => t.pc == 0x300#16) = true := by decide
/-- V-4e: no wrap to 12 bits. -/
theorem test_jpV0_top : ends (run 0xBFFF (State.reset.setV 0x0#4 0xFF#8)) (fun t => t.pc == 0x10FE#16) = true := by decide
/-- V-4g: a mask of 0 gives 0 whatever the draw. -/
theorem test_rnd : ∃ t, exec (.rnd 0x1#4 0x00#8) State.reset = .next t ∧ t.getV 0x1#4 = 0x00#8 ∧ t.draws = 1 :=
  ⟨_, rfl, (BitVec.and_zero : Config.randomByte 0 &&& 0x00#8 = 0x00#8), rfl⟩

/-! ### Draw -/

/-- V-5c: a column wraps. -/
theorem test_drw_wrap : ends (run 0xD121 (poke ((with2 0x1#4 0x3F#8 0x2#4 0x1F#8).setI 0x300#16) 0x300 0xC0#8))
    (fun t => Display.pixel t.display 31 63 && Display.pixel t.display 31 0 && countOn t == 2 &&
      t.getV vF == 0x00#8 && t.i == 0x300#16) = true := by decide
/-- V-5g: the collision of the first row is not forgotten. -/
theorem test_drw_collision :
    ends (run 0xD122 (lit (poke (poke (State.reset.setI 0x300#16) 0x300 0x80#8) 0x301 0x80#8) 0 0))
      (fun t => Display.pixel t.display 1 0 && countOn t == 1 && t.getV vF == 0x01#8) = true := by decide

/-! ### Family F -/

/-- V-7a. -/
theorem test_ldVxDt : ends (run 0xF407 (State.reset.setDt 0x07#8))
    (fun t => t.getV 0x4#4 == 0x07#8 && t.dt == 0x07#8) = true := by decide
/-- V-7b: nothing changes. -/
theorem test_ldVxK_wait : ends (run 0xF30A State.reset) (fun t => t == State.reset.withFetchWord 16 0xF30A) = true := by
  decide
/-- V-7d: the lowest index. -/
theorem test_ldVxK : ends (run 0xF30A (press 9 (press 2 (press 12 State.reset))))
    (fun t => t.getV 0x3#4 == 0x02#8 && t.pc == 0x202#16) = true := by decide
/-- V-7f. -/
theorem test_ldDtVx : ends (run 0xF315 (State.reset.setV 0x3#4 0x07#8))
    (fun t => t.dt == 0x07#8 && t.st == 0x00#8) = true := by decide
/-- V-7g. -/
theorem test_ldStVx : ends (run 0xF318 (State.reset.setV 0x3#4 0x1E#8))
    (fun t => t.st == 0x1E#8 && t.dt == 0x00#8) = true := by decide
/-- V-7i, V-7j: no flag, and the wrap at 16 bits. -/
theorem test_addI : ends (run 0xF21E ((State.reset.setV 0x2#4 0x01#8).setI 0x0FFF#16))
      (fun t => t.i == 0x1000#16 && t.getV vF == 0x00#8) = true ∧
    ends (run 0xF21E ((State.reset.setV 0x2#4 0x01#8).setI 0xFFFF#16)) (fun t => t.i == 0x0000#16) = true := by decide
/-- V-7l, V-7n: no mask of the digit. -/
theorem test_ldF : ends (run 0xF029 (State.reset.setV 0x0#4 0x0F#8)) (fun t => t.i == 0x004B#16) = true ∧
    ends (run 0xF029 (State.reset.setV 0x0#4 0xFF#8)) (fun t => t.i == 0x04FB#16) = true := by decide
/-- V-7t: the last legal place. -/
theorem test_ldB : ends (run 0xF033 ((State.reset.setV 0x0#4 0x7B#8).setI 0x0FFD#16))
    (fun t => t.mem.read 0xFFD == 0x01#8 && t.mem.read 0xFFE == 0x02#8 && t.mem.read 0xFFF == 0x03#8 &&
      t.i == 0x0FFD#16) = true := by decide
/-- V-F3. -/
theorem test_ldB_fault : faults (run 0xF033 (State.reset.setI 0x0FFE#16)) .memOutOfBounds = true := by decide
/-- V-7u: registers above `x` are not stored. -/
theorem test_stRegs : ends (run 0xF155 (((with2 0x0#4 0x63#8 0x1#4 0xAB#8).setV 0x2#4 0x77#8).setI 0x300#16))
    (fun t => t.mem.read 0x300 == 0x63#8 && t.mem.read 0x301 == 0xAB#8 && t.mem.read 0x302 == 0x00#8 &&
      t.i == 0x300#16) = true := by decide
/-- V-F4. -/
theorem test_stRegs_fault : faults (run 0xFF55 (State.reset.setI 0x0FF1#16)) .memOutOfBounds = true := by decide
/-- V-7y: the font. -/
theorem test_ldRegs : ends (run 0xFF65 State.reset)
    (fun t => t.getV 0x0#4 == 0xF0#8 && t.getV 0x1#4 == 0x90#8 && t.getV 0x5#4 == 0x20#8 && t.getV vF == 0xF0#8 &&
      t.i == 0x0000#16) = true := by decide
/-- V-F4b. -/
theorem test_ldRegs_fault : faults (run 0xFF65 (State.reset.setI 0x0FF1#16)) .memOutOfBounds = true := by decide

/-! ### Results of a step -/

/-- E2. -/
theorem test_decodeError : (State.reset.withFetchWord 16 0xE000).cycle =
    .decodeError 0xE000#16 ((State.reset.withFetchWord 16 0xE000).setPc 0x202#16) := by decide
/-- V-F1. -/
theorem test_fetch_fault : (State.reset.setPc 0xFFF#16).cycle = .fault .memOutOfBounds := by decide
/-- 60_exceptions.md R202. -/
theorem test_codes : (StepResult.fault .memOutOfBounds).code = 2 ∧ (StepResult.fault .keyIndexOutOfRange).code = 5 ∧
    (StepResult.decodeError 0xE000#16 State.reset).code = 1 := by decide

/-! ### The host's operations -/

/-- V-8a, V-8b. -/
theorem test_tick : ((State.reset.setDt 0x03#8).setSt 0x01#8).tick.dt = 0x02#8 ∧
    ((State.reset.setDt 0x03#8).setSt 0x01#8).tick.st = 0x00#8 ∧ State.reset.tick = State.reset := by decide
/-- V-8g. -/
theorem test_load : (State.reset.loadImage [0x12#8, 0x00#8]).mem = [(0x200, 0x12#8)] := by decide
/-- E9: the wait, the key, the next step. -/
theorem test_host_key_wait : (match Block.runWith .halt (.running (State.reset.withFetchWord 16 0xF30A) false)
      [.step, .setKey 7 true, .step] with
    | .ok (rs, .running t _) => rs == [.stepOk, .done, .stepOk] && t.getV 0x3#4 == 0x07#8 && t.pc == 0x202#16
    | .ok (_, .faulted _ _) => false
    | .error _ => false) = true := by decide
/-- V-F8: after a fault a step and a tick are refused, and reset gives the fresh machine. -/
theorem test_host_fault : (Block.faulted .stackUnderflow 0).move .step = .error .movedAfterFault ∧
    (Block.faulted .stackUnderflow 0).move .tick = .error .movedAfterFault ∧
    (Block.faulted .stackUnderflow 0).move .reset = .ok (.done, .fresh) := by decide
/-- D10: under `halt` nothing follows a decode failure, under `goOn` the next step does. -/
theorem test_host_decodeError :
    (match Block.runWith .halt (.running (State.reset.withFetchWord 16 0xE000) false) [.step, .step] with
      | .ok (rs, _) => rs == [.decodeError 0xE000#16]
      | .error _ => false) = true ∧
    (match Block.runWith .goOn (.running (State.reset.withFetchWord 16 0xE000) false) [.step, .step] with
      | .ok (rs, _) => rs == [.decodeError 0xE000#16, .stepOk]
      | .error _ => false) = true := by decide
/-- R210. -/
theorem test_schedule : frameSchedule 2 2 = [.step, .step, .tick, .step, .step, .tick] := by decide
/-- R84. -/
theorem test_text : (asmOf (.drw 0x1#4 0x2#4 0x5#4)).text = "DRW V1, V2, 0x5" ∧ (asmOf (.stRegs 0xF#4)).text = "LD [I], VF" ∧
    (asmOf .cls).text = "CLS" := by decide

/-! ### Witnesses: a state and operands that meet the hypotheses of each obligation, clause by clause, at the boundaries -/

/-- The reset state with a word placed at an address that `pc` is set to. -/
def placed (pc : Word) (w : Nat) : State := (State.reset.setPc pc).withFetchWord 16 w

theorem witness_DecodeOfEncodeIsTheInstruction : (Instr.sys 0x0E1#12).wellFormed = true ∧
    (Instr.drw 0xF#4 0xF#4 0xF#4).wellFormed = true := by decide

theorem witness_EncodeOfDecodeKeepsTheUsedBits : decode 0x812E#16 = .ok (.shl 0x1#4) := by decide

theorem witness_DecodeFollowsTheOpcodeMap : decode 0x00E1#16 = .ok (.sys 0x0E1#12) ∧
    0x00E1#16 &&& (opcodeRow (.sys 0x000#12)).1 = (opcodeRow (.sys 0x000#12)).2 ∧
    0x00E0#16 &&& (opcodeRow .cls).1 = (opcodeRow .cls).2 := by decide

theorem witness_IllegalWordsAreExactlyThoseListed : decode 0x800F#16 = .error (.unknownWord 0x800F#16) ∧
    decode 0xE09D#16 = .error (.unknownWord 0xE09D#16) ∧ decode 0xF066#16 = .error (.unknownWord 0xF066#16) := by decide

theorem witness_IgnoredBitsMakeNoDifference : decode 0x5120#16 = .ok (.seReg 0x1#4 0x2#4) ∧
    0x512F#16 &&& usedBits (.seReg 0x1#4 0x2#4) = 0x5120#16 &&& usedBits (.seReg 0x1#4 0x2#4) := by decide

/-- At the last address a fetch succeeds; the execute phase completes. -/
theorem witness_StepRunsTheDecodedInstruction_next : (placed 0xFFE#16 0x6011).pc.toNat + 1 < 4096 ∧
    (0x6011#16).toNat =
      ((placed 0xFFE#16 0x6011).mem.read 0xFFE).toNat * 256 + ((placed 0xFFE#16 0x6011).mem.read 0xFFF).toNat ∧
    decode 0x6011#16 = .ok (.ldImm 0x0#4 0x11#8) ∧
    ends (exec (.ldImm 0x0#4 0x11#8) ((placed 0xFFE#16 0x6011).setPc (0xFFE#16 + 2#16))) (fun t => t.pc == 0x1000#16) = true := by
  decide

/-- The execute phase faults. -/
theorem witness_StepRunsTheDecodedInstruction_fault : (placed 0x000#16 0x00EE).pc.toNat + 1 < 4096 ∧
    (0x00EE#16).toNat = ((placed 0x000#16 0x00EE).mem.read 0).toNat * 256 + ((placed 0x000#16 0x00EE).mem.read 1).toNat ∧
    decode 0x00EE#16 = .ok .ret ∧
    faults (exec .ret ((placed 0x000#16 0x00EE).setPc (0x000#16 + 2#16))) .stackUnderflow = true := by decide

theorem witness_FetchBeyondMemoryFaults : 0xFFF ≤ (State.reset.setPc 0xFFF#16).pc.toNat ∧
    0xFFF ≤ (State.reset.setPc 0xFFFF#16).pc.toNat := by decide

theorem witness_DecodeFailureOnlyAdvancesPc : (placed 0xFFE#16 0xF0FF).pc.toNat + 1 < 4096 ∧
    (0xF0FF#16).toNat =
      ((placed 0xFFE#16 0xF0FF).mem.read 0xFFE).toNat * 256 + ((placed 0xFFE#16 0xF0FF).mem.read 0xFFF).toNat ∧
    decode 0xF0FF#16 = .error (.unknownWord 0xF0FF#16) := by decide

theorem witness_RetPopsTheProgramCounter : (depth 1).sp.val = (0 : Fin 16).val + 1 ∧
    (depth 16).sp.val = (15 : Fin 16).val + 1 ∧ (depth 0).sp.val = 0 := by decide

theorem witness_CallPushesAndJumps : (depth 0).sp.val = (0 : Fin 16).val ∧ (depth 15).sp.val = (15 : Fin 16).val ∧
    (depth 16).sp.val = 16 := by decide

theorem witness_ReturnUndoesCall : (depth 0).sp.val < 16 ∧ (depth 15).sp.val < 16 := by decide

theorem witness_KeySkipsTestTheKeyNamedByTheValue :
    ((State.reset.setV 0x1#4 0x00#8).getV 0x1#4).toNat = (0 : Fin 16).val ∧
    ((State.reset.setV 0x1#4 0x0F#8).getV 0x1#4).toNat = (15 : Fin 16).val ∧
    16 ≤ ((State.reset.setV 0x1#4 0x10#8).getV 0x1#4).toNat ∧
    16 ≤ ((State.reset.setV 0x1#4 0xFF#8).getV 0x1#4).toNat := by decide

theorem witness_FlagWritersLeaveVFZeroOrOne :
    Instr.addReg vF 0x2#4 ∈ [Instr.addReg vF 0x2#4, .sub vF 0x2#4, .shr vF, .subn vF 0x2#4, .shl vF, .drw vF 0x2#4 0x0#4] ∧
    Instr.drw vF 0x2#4 0x0#4 ∈
      [Instr.addReg vF 0x2#4, .sub vF 0x2#4, .shr vF, .subn vF 0x2#4, .shl vF, .drw vF 0x2#4 0x0#4] ∧
    ends (exec (.addReg vF 0x2#4) (State.reset.setV vF 0xFF#8)) (fun t => t.getV vF == 0x00#8) = true ∧
    ends (exec (.drw vF 0x2#4 0x0#4) (State.reset.setV vF 0xFF#8)) (fun t => t.getV vF == 0x00#8) = true := by decide

/-- No row, the last place that fits, the first that does not. -/
theorem witness_DrwXorsTheWrappedSprite :
    ((0x0#4).toNat = 0 ∨ (State.reset.setI 0xFFFF#16).i.toNat + (0x0#4).toNat ≤ 4096) ∧
    ((0xF#4).toNat = 0 ∨ (State.reset.setI 0x0FF1#16).i.toNat + (0xF#4).toNat ≤ 4096) ∧
    ((0xF#4).toNat ≠ 0 ∧ 4096 < (State.reset.setI 0x0FF2#16).i.toNat + (0xF#4).toNat) := by decide

theorem witness_DrwXorsTheWrappedSprite_flag_one :
    ∃ py px, SpriteMask (lit State.reset 0 0) 0x1#4 0x2#4 0x1#4 py px ∧
      Display.pixel (lit State.reset 0 0).display py px = true :=
  ⟨0, 0, ⟨0, by decide, 0, by decide, by decide, by decide, by decide⟩, by decide⟩

theorem witness_DrawingTwiceRestoresTheDisplay : (0x1#4 : Reg) ≠ vF ∧ (0x2#4 : Reg) ≠ vF ∧
    ((0x5#4).toNat = 0 ∨ State.reset.i.toNat + (0x5#4).toNat ≤ 4096) ∧
    State.reset.display = Display.clear := by decide

/-- The least key 0, the last key alone, no key. -/
theorem witness_KeyWaitTakesTheLeastKeyOrRewinds :
    ((press 0 State.reset).keys[(0 : Fin 16)] = true ∧ ∀ j : Fin 16, j < 0 → (press 0 State.reset).keys[j] = false) ∧
    ((press 15 State.reset).keys[(15 : Fin 16)] = true ∧ ∀ j : Fin 16, j < 15 → (press 15 State.reset).keys[j] = false) ∧
    (∀ k : Fin 16, State.reset.keys[k] = false) := by decide

theorem witness_KeyWaitStepWithNoKeyChangesNothing : (placed 0xFFE#16 0xFF0A).pc.toNat + 1 < 4096 ∧
    ((placed 0xFFE#16 0xFF0A).mem.read (placed 0xFFE#16 0xFF0A).pc.toNat).toNat = 0xF0 + (0xF#4).toNat ∧
    ((placed 0xFFE#16 0xFF0A).mem.read ((placed 0xFFE#16 0xFF0A).pc.toNat + 1)).toNat = 0x0A ∧
    (∀ k : Fin 16, (placed 0xFFE#16 0xFF0A).keys[k] = false) := by decide

theorem witness_BcdStoresTheThreeDigits :
    ((State.reset.setI 0x0FFD#16).MemInv ∧ (State.reset.setI 0x0FFD#16).i.toNat + 2 < 4096) ∧
    4096 ≤ (State.reset.setI 0x0FFE#16).i.toNat + 2 := by decide

theorem witness_BlockStoreStoresVZeroToVx :
    ((State.reset.setI 0x0FF0#16).MemInv ∧ (State.reset.setI 0x0FF0#16).i.toNat + (0xF#4).toNat < 4096) ∧
    4096 ≤ (State.reset.setI 0x0FF1#16).i.toNat + (0xF#4).toNat ∧
    4096 ≤ (State.reset.setI 0x1000#16).i.toNat + (0x0#4).toNat := by decide

theorem witness_BlockLoadLoadsVZeroToVx :
    (State.reset.setI 0x0FFF#16).i.toNat + (0x0#4).toNat < 4096 ∧
    (State.reset.setI 0x0FF0#16).i.toNat + (0xF#4).toNat < 4096 ∧
    4096 ≤ (State.reset.setI 0x0FF1#16).i.toNat + (0xF#4).toNat := by decide

/-- Between the store and the load the registers and `pc` change. -/
theorem witness_BlockLoadUndoesBlockStore : ∃ t : State, (State.reset.setI 0x300#16).MemInv ∧
    exec (.stRegs 0x1#4) (State.reset.setI 0x300#16) = .next t ∧
    KeepsAllBut [.regs, .pc] t ((t.setV 0x0#4 0x77#8).setPc 0x204#16) ∧
    ((t.setV 0x0#4 0x77#8).setPc 0x204#16).getV 0x0#4 = 0x77#8 ∧ t.getV 0x0#4 = 0x00#8 := by
  refine ⟨_, by decide, rfl, ?_, by decide, by decide⟩
  intro p hp
  cases p <;> simp_all [SamePart]

/-- The next word is the first two registers, and the last two. -/
theorem witness_StoredBytesAreFetchedNext :
    ((State.reset.setI 0x0200#16).MemInv ∧ (State.reset.setI 0x0200#16).i.toNat + (0x1#4).toNat < 4096 ∧
      (State.reset.setI 0x0200#16).i.toNat ≤ (State.reset.setI 0x0200#16).pc.toNat ∧
      (State.reset.setI 0x0200#16).pc.toNat + 1 ≤ (State.reset.setI 0x0200#16).i.toNat + (0x1#4).toNat) ∧
    ((State.reset.setI 0x01F2#16).MemInv ∧ (State.reset.setI 0x01F2#16).i.toNat + (0xF#4).toNat < 4096 ∧
      (State.reset.setI 0x01F2#16).i.toNat ≤ (State.reset.setI 0x01F2#16).pc.toNat ∧
      (State.reset.setI 0x01F2#16).pc.toNat + 1 ≤ (State.reset.setI 0x01F2#16).i.toNat + (0xF#4).toNat) := by decide

theorem witness_FaultsAreExactlyThoseListed : execFault .ret State.reset = some .stackUnderflow ∧
    execFault (.drw 0x0#4 0x0#4 0x1#4) (State.reset.setI 0x1000#16) = some .memOutOfBounds ∧
    execFault (.drw 0x0#4 0x0#4 0x0#4) (State.reset.setI 0x1000#16) = none ∧ execFault .cls State.reset = none := by decide

theorem witness_InstructionsWriteOnlyWhatTheTableSays : ∃ t, exec (.stRegs 0x1#4) State.reset = .next t := ⟨_, rfl⟩

/-- A state with a byte stored, `pc` at the last address a fetch succeeds at and a jump with offset there. -/
theorem witness_StepKeepsTheMemoryCanonical : ∃ t, (poke (placed 0xFFE#16 0xBFFF) 0x300 0x12#8).MemInv ∧
    step (poke (placed 0xFFE#16 0xBFFF) 0x300 0x12#8) = .next t := ⟨_, by decide, rfl⟩

theorem witness_StepKeepsPcAndStackInRange : ∃ t, (placed 0xFFE#16 0x2FFF).RangeInv ∧
    step (placed 0xFFE#16 0x2FFF) = .next t := ⟨_, by decide, rfl⟩

theorem witness_RangeInv_boundary : (State.reset.setPc 0x10FE#16).RangeInv := by decide

/-- Every operation has a move from a block that meets the invariant, and a fault has its own block. -/
theorem witness_HostOperationsKeepTheInvariants : Block.fresh.Inv ∧
    (∀ op ∈ [HostOp.step, .tick, .setKey 15 true, .load [0x12#8, 0x00#8], .reset, .readDisplay, .readSoundTimer],
      ∃ r b, Block.fresh.move op = .ok (r, b)) ∧
    (Block.running (State.reset.setPc 0xFFF#16) true).move .step =
      .ok (.fault .memOutOfBounds, .faulted .memOutOfBounds 0) := by
  refine ⟨⟨by decide, by decide⟩, ?_, by decide⟩
  intro op h
  simp only [List.mem_cons, List.not_mem_nil, or_false] at h
  rcases h with rfl | rfl | rfl | rfl | rfl | rfl | rfl <;> exact ⟨_, _, rfl⟩

theorem witness_SoundTimerIsReadByNoInstruction : faults (step (State.reset.setPc 0xFFF#16)) .memOutOfBounds = true ∧
    ends (run 0xF318 State.reset) (fun t => t.st == 0x00#8) = true := by decide

/-- A slot in use is the same, the next one differs. -/
theorem witness_UnusedStackSlotsAreNeverSeen :
    (∀ k : Fin 16, k.val < (depth 1).sp.val → ((depth 1).stack.set 1 0x0ABC#16)[k] = (depth 1).stack[k]) ∧
    (depth 1).stack.set 1 0x0ABC#16 ≠ (depth 1).stack ∧
    ends (run 0x2300 (depth 1)) (fun t => t.sp.val == 2) = true ∧
    faults (run 0x2300 (depth 16)) .stackOverflow = true := by decide

theorem witness_JumpToItselfChangesNothing : (placed 0x200#16 0x1200).atSelfJump ∧ (placed 0xFFE#16 0x1FFE).atSelfJump :=
  ⟨⟨by decide, 0x200#12, by decide, by decide⟩, ⟨by decide, 0xFFE#12, by decide, by decide⟩⟩

theorem witness_SetKeyWritesOneFlag : (15 : Fin 16).val < 16 ∧ 16 ≤ (16 : Nat) := by decide

/-- The longest image, one byte more, and the empty one. -/
theorem witness_LoadWritesTheImageAtTheOrigin : State.reset.MemInv ∧
    (List.replicate 3584 0xFF#8).length ≤ 3584 ∧ 3584 < (List.replicate 3585 0xFF#8).length ∧
    ([] : List Byte).length ≤ 3584 :=
  ⟨by decide, by rw [List.length_replicate], by rw [List.length_replicate]; decide, by decide⟩

theorem witness_ReadsReturnSnapshotsAndChangeNothing :
    ∀ op ∈ [HostOp.readDisplay, .readSoundTimer, .readDisplay], op = .readDisplay ∨ op = .readSoundTimer := by decide

theorem witness_FaultIsRecordedUntilReset : faults (step (State.reset.setPc 0xFFF#16)) .memOutOfBounds = true ∧
    State.reset.cycle = .ok (State.reset.setPc 0x202#16) ∧
    (State.reset.withFetchWord 16 0xE000).cycle =
      .decodeError 0xE000#16 ((State.reset.withFetchWord 16 0xE000).setPc 0x202#16) ∧
    step State.reset = .next (State.reset.setPc 0x202#16) ∧
    step (State.reset.withFetchWord 16 0xE000) = .next ((State.reset.withFetchWord 16 0xE000).setPc 0x202#16) ∧
    HostOp.tick ∈ [HostOp.step, .tick] ∧ (15 : Nat) < 16 :=
  ⟨by decide, by decide, by decide, rfl, rfl, by decide, by decide⟩

end Sys2Proof.Tests
end

section
/-! SUPPORT. What an execute phase can do to `pc`, the stack and memory, said once for all instructions, and the two
invariants of a block that follow from it: the canonical form of memory, and the range of `pc` and of the stack slots. -/

namespace Sys2Proof.Machine

/-! ### What an execute phase does to `pc`, the stack and memory -/

/-- The shapes an execute phase from `s`, whose `pc` is already advanced, can have in `pc`, the stack and memory. -/
inductive ControlEffect (s : State) : State → Prop
  /-- None of the three is written. -/
  | data {t : State} (mem : t.mem = s.mem) (stack : t.stack = s.stack) (pc : t.pc = s.pc) : ControlEffect s t
  /-- A span of memory is written (47_familyF.md R186, R187). -/
  | store {t : State} {a : Nat} {bs : List Byte} (written : s.writeSpan a bs = .ok t) : ControlEffect s t
  /-- A skip (41_skips.md R110). -/
  | skip : ControlEffect s s.advance
  /-- The key wait with no key down (47_familyF.md R181). -/
  | wait : ControlEffect s s.rewind
  /-- A jump to an address plus a byte (44_index_jumpoffset_random.md R151). -/
  | jump (addr : Addr) (b : Byte) : ControlEffect s (s.setPc (addrWord addr + byteWord b))
  /-- A call (40_family0_jump_call.md R105). -/
  | call {u : State} (addr : Addr) (pushed : s.push s.pc = .ok u) : ControlEffect s (u.setPc (addrWord addr))
  /-- A return (40_family0_jump_call.md R102). -/
  | ret {w : Word} {u : State} (popped : s.pop = .ok (w, u)) : ControlEffect s (u.setPc w)

/-- A conditional skip either leaves the state or skips. -/
theorem State.skipIf_effect (s : State) (c : Bool) : ControlEffect s (s.skipIf c) := by
  cases c with
  | false => exact .data rfl rfl rfl
  | true => exact .skip

theorem execRet_effect {s t : State} (h : execRet s = .next t) : ControlEffect s t := by
  simp only [execRet] at h
  split at h
  next w u hpop => cases h; exact .ret hpop
  next => cases h

theorem execCall_effect {addr : Addr} {s t : State} (h : execCall addr s = .next t) : ControlEffect s t := by
  simp only [execCall] at h
  split at h
  next u hpush => cases h; exact .call addr hpush
  next => cases h

/-- A jump is a jump with offset 0. -/
theorem execJp_effect {addr : Addr} {s t : State} (h : execJp addr s = .next t) : ControlEffect s t := by
  have hzero : addrWord addr = addrWord addr + byteWord 0x00#8 := by simp [byteWord]
  cases h
  rw [hzero]
  exact .jump addr _

theorem execDrw_effect {x y : Reg} {n : Nibble} {s t : State} (h : execDrw x y n s = .next t) : ControlEffect s t := by
  simp only [execDrw] at h
  split at h
  next => cases h; exact .data rfl rfl rfl
  next => cases h

theorem execSkp_effect {x : Reg} {s t : State} (h : execSkp x s = .next t) : ControlEffect s t := by
  simp only [execSkp] at h
  split at h
  next down _ => cases h; exact s.skipIf_effect down
  next => cases h

theorem execSknp_effect {x : Reg} {s t : State} (h : execSknp x s = .next t) : ControlEffect s t := by
  simp only [execSknp] at h
  split at h
  next down _ => cases h; exact s.skipIf_effect (!down)
  next => cases h

theorem execLdVxK_effect {x : Reg} {s t : State} (h : execLdVxK x s = .next t) : ControlEffect s t := by
  simp only [execLdVxK] at h
  split at h
  next => cases h; exact .data rfl rfl rfl
  next => cases h; exact .wait

theorem execLdRegs_effect {x : Reg} {s t : State} (h : execLdRegs x s = .next t) : ControlEffect s t := by
  simp only [execLdRegs] at h
  split at h
  next => cases h; rw [State.setBlock_others]; exact .data rfl rfl rfl
  next => cases h

/-- Every execute phase that completes has one of the shapes. -/
theorem exec_effect {i : Instr} {s t : State} (h : exec i s = .next t) : ControlEffect s t := by
  cases i with
  | cls | sys | ldImm | addImm | ldReg | orReg | andReg | xorReg | addReg | sub | shr | subn | shl | ldI | rnd | ldVxDt
  | ldDtVx | ldStVx | addI | ldF =>
    exact Host.Outcome.next.inj h ▸ .data rfl rfl rfl
  | seImm | sneImm | seReg | sneReg => exact Host.Outcome.next.inj h ▸ s.skipIf_effect _
  | skp x => exact execSkp_effect h
  | sknp x => exact execSknp_effect h
  | jp addr => exact execJp_effect h
  | jpV0 addr => exact Host.Outcome.next.inj h ▸ .jump addr _
  | call addr => exact execCall_effect h
  | ret => exact execRet_effect h
  | drw x y n => exact execDrw_effect h
  | ldVxK x => exact execLdVxK_effect h
  | ldB x => exact .store ((finish_eq_next_iff _ _).1 h)
  | stRegs x => exact .store ((finish_eq_next_iff _ _).1 h)
  | ldRegs x => exact execLdRegs_effect h

/-- A step that answers a state has fetched inside the memory, and has one of the shapes from the advanced state; a decode
failure writes nothing more (60_exceptions.md R201). -/
theorem step_effect {s t : State} (h : step s = .next t) : s.pc.toNat + 1 < 4096 ∧ ControlEffect s.advance t := by
  obtain ⟨w, i, hf, -, he⟩ | ⟨w, e, hf, -, rfl⟩ := step_cases h
  · exact ⟨((s.fetch_eq_ok_iff w).1 hf).1, exec_effect he⟩
  · exact ⟨((s.fetch_eq_ok_iff w).1 hf).1, .data rfl rfl rfl⟩

/-! ### The canonical form of memory -/

theorem ControlEffect.keeps_memInv {s t : State} (h : ControlEffect s t) (hs : s.MemInv) : t.MemInv := by
  cases h with
  | data mem _ _ => simpa only [State.MemInv, mem] using hs
  | store written => exact State.wf_of_writeSpan hs written
  | skip | wait | jump => exact hs
  | call addr pushed =>
    obtain ⟨_, rfl⟩ := (s.push_eq_ok_iff _ _).1 pushed
    exact hs
  | ret popped =>
    obtain ⟨_, _, rfl⟩ := (s.pop_eq_ok_iff _ _).1 popped
    exact hs

theorem step_keeps_memInv {s t : State} (hs : s.MemInv) (h : step s = .next t) : t.MemInv :=
  (step_effect h).2.keeps_memInv hs

/-! ### The range of `pc` and of the stack slots -/

theorem addrWord_toNat (addr : Addr) : (addrWord addr).toNat = addr.toNat := by
  simp only [addrWord, BitVec.toNat_setWidth]; omega

/-- A jump's target is not reduced and ends at 0xFFF + 0xFF (10_state.md R26). -/
theorem addrWord_add_byteWord_toNat_le (addr : Addr) (b : Byte) : (addrWord addr + byteWord b).toNat ≤ 0x10FE := by
  simp only [addrWord, byteWord, BitVec.toNat_add, BitVec.toNat_setWidth]; omega

/-- From an advanced `pc` after a fetch inside the memory, every shape keeps the range: a pushed `pc` is at most 0x1000, a
popped one was a slot, and a rewound one does not go below 0. -/
theorem ControlEffect.keeps_rangeInv {s t : State} (h : ControlEffect s t) (hlo : 2 ≤ s.pc.toNat)
    (hhi : s.pc.toNat ≤ 0x1000) (hs : ∀ k : Fin 16, s.stack[k].toNat ≤ 0x1000) : t.RangeInv := by
  cases h with
  | data _ stack pc => exact ⟨by rw [pc]; omega, by simpa only [stack] using hs⟩
  | store written =>
    obtain ⟨_, rfl⟩ := (s.writeSpan_eq_ok_iff _ _ _).1 written
    exact ⟨by rw [State.setMem_pc]; omega, hs⟩
  | skip => exact ⟨by rw [State.advance_pc]; bv_omega, hs⟩
  | wait => exact ⟨by rw [State.rewind_pc]; bv_omega, hs⟩
  | jump addr b => exact ⟨addrWord_add_byteWord_toNat_le addr b, hs⟩
  | call addr pushed =>
    obtain ⟨hsp, rfl⟩ := (s.push_eq_ok_iff _ _).1 pushed
    refine ⟨by rw [State.setPc_pc, addrWord_toNat]; omega, fun k => ?_⟩
    simp only [State.setPc_stack, Fin.getElem_fin, Vector.getElem_set]
    split
    · exact hhi
    · exact hs k
  | ret popped =>
    obtain ⟨hsp, rfl, rfl⟩ := (s.pop_eq_ok_iff _ _).1 popped
    have hslot := hs ⟨s.sp.val - 1, by omega⟩
    exact ⟨le_trans hslot (by decide), hs⟩

theorem step_keeps_rangeInv {s t : State} (hs : s.RangeInv) (h : step s = .next t) : t.RangeInv := by
  obtain ⟨-, hstack⟩ := hs
  obtain ⟨hpc, heff⟩ := step_effect h
  have hadv : s.advance.pc.toNat = s.pc.toNat + 2 := by rw [State.advance_pc]; bv_omega
  exact heff.keeps_rangeInv (by omega) (by omega) hstack

/-! ### The operations of the host -/

theorem reset_memInv : State.reset.MemInv := by decide

theorem reset_rangeInv : State.reset.RangeInv := by decide

/-- A block after a step meets the invariants when the state the step answers, if it answers one, does. -/
theorem Block.inv_of_afterStep {draws : Nat} {res : StepResult} {r : Reply} {b : Block}
    (hnext : ∀ t, res.outcome = .next t → t.MemInv ∧ t.RangeInv) (h : Block.afterStep draws res = .ok (r, b)) :
    b.Inv := by
  cases res with
  | ok t | decodeError _ t => cases h; exact hnext t rfl
  | fault k => cases h; trivial
  | refused e => cases h

/-- A program that is not too long lies inside the memory, so that loading it keeps the canonical form (20_memory.md R62). -/
theorem State.loadImage_keeps_memInv {s : State} {bytes : List Byte} (hs : s.MemInv)
    (hlen : bytes.length ≤ Config.maxProgram) : (s.loadImage bytes).MemInv :=
  Memory.wf_writeAll hs (.inr (Nat.add_le_add_left hlen Config.programOrigin))

/-- Reads, ticks and key changes write neither memory nor `pc` nor the stack; a step, a load and a reset have lemmas of their
own. -/
theorem Block.move_running_keeps_inv {s : State} {stepped : Bool} {op : HostOp} {r : Reply} {b : Block}
    (hmem : s.MemInv) (hrange : s.RangeInv) (h : (Block.running s stepped).move op = .ok (r, b)) : b.Inv := by
  cases op with
  | step =>
    exact Block.inv_of_afterStep (fun t ht => ⟨step_keeps_memInv hmem ht, step_keeps_rangeInv hrange ht⟩) h
  | tick | readDisplay | readSoundTimer => cases h; exact ⟨hmem, hrange⟩
  | setKey k down =>
    simp only [Block.move] at h
    split_ifs at h with hk
    cases h
    exact ⟨hmem, hrange⟩
  | load bytes =>
    simp only [Block.move] at h
    split_ifs at h with hstepped hlen
    cases h
    exact ⟨State.loadImage_keeps_memInv hmem hlen, hrange⟩
  | reset => cases h; exact ⟨reset_memInv, reset_rangeInv⟩

/-- A faulted block stays one until a reset, which gives the fresh components back (60_exceptions.md R203). -/
theorem Block.move_faulted_keeps_inv {k : Fault} {draws : Nat} {op : HostOp} {r : Reply} {b : Block}
    (h : (Block.faulted k draws).move op = .ok (r, b)) : b.Inv := by
  cases op with
  | reset => cases h; exact ⟨reset_memInv, reset_rangeInv⟩
  | setKey n down =>
    simp only [Block.move] at h
    split_ifs at h with hk
    cases h
    trivial
  | step | tick | load | readDisplay | readSoundTimer => cases h

/-- Settles O50: by the shape of what a step does to `pc`, the stack and memory, and by cases on the other operations. -/
theorem hostOperationsKeepTheInvariants : Obligations.HostOperationsKeepTheInvariants := by
  intro b b' op r hinv h
  cases b with
  | running s stepped =>
    obtain ⟨hmem, hrange⟩ := hinv
    exact Block.move_running_keeps_inv hmem hrange h
  | faulted k draws => exact Block.move_faulted_keeps_inv h

end Sys2Proof.Machine
end

section
/-! SUPPORT. What each operation and each instruction leaves unchanged, which results a cycle has, and that no step observes
the sound timer or a stack slot not in use; with them the statements about the state (10_state.md). -/

namespace Sys2Proof

/-! ### What a word decodes to is well-formed -/

/-- In family 0x0 the address of a legacy call is the word itself, and 0x00E0 and 0x00EE are taken before it. -/
theorem decodeFamily0_wellFormed {w : Word} (hfam : fieldN1 w = 0x0#4) : (decodeFamily0 w).wellFormed = true := by
  have hword : w = wordNNN 0x0#4 (fieldAddr w) := by rw [← hfam, wordNNN_fields]
  simp only [decodeFamily0]
  split_ifs with hcls hret
  · rfl
  · rfl
  · simp only [Instr.wellFormed, Bool.and_eq_true, bne_iff_ne]
    exact ⟨fun ha => hcls (by rw [hword, ha]; rfl), fun ha => hret (by rw [hword, ha]; rfl)⟩

theorem decodeFamily8_wellFormed {w : Word} {i : Instr} (h : decodeFamily8 w = .ok i) : i.wellFormed = true := by
  simp only [decodeFamily8] at h
  split at h <;> cases h <;> rfl

theorem decodeFamilyE_wellFormed {w : Word} {i : Instr} (h : decodeFamilyE w = .ok i) : i.wellFormed = true := by
  simp only [decodeFamilyE] at h
  split at h <;> cases h <;> rfl

theorem decodeFamilyF_wellFormed {w : Word} {i : Instr} (h : decodeFamilyF w = .ok i) : i.wellFormed = true := by
  simp only [decodeFamilyF] at h
  split at h <;> cases h <;> rfl

/-- Well-formedness restricts the legacy call alone, so that every family but 0x0 is immediate. -/
theorem wellFormed_of_decode {w : Word} {i : Instr} (h : decode w = .ok i) : i.wellFormed = true := by
  simp only [decode] at h
  split at h
  case h_1 hfam => cases h; exact decodeFamily0_wellFormed (BitVec.eq_of_toNat_eq hfam)
  case h_9 => exact decodeFamily8_wellFormed h
  case h_15 => exact decodeFamilyE_wellFormed h
  case h_16 => exact decodeFamilyF_wellFormed h
  all_goals cases h; rfl

end Sys2Proof

namespace Sys2Proof.Machine

/-! ### The results of a cycle -/

theorem State.cycle_of_fetch_error {s : State} {k : Fault} (hf : s.fetch = .error k) : s.cycle = .fault k := by
  simp only [State.cycle, hf]

theorem State.cycle_of_decode_error {s : State} {w : Word} {e : DecodeError} (hf : s.fetch = .ok w)
    (hd : decode w = .error e) : s.cycle = .decodeError w s.advance := by
  simp only [State.cycle, hf, hd, State.afterDecodeError]

theorem State.cycle_of_decode_ok {s : State} {w : Word} {i : Instr} (hf : s.fetch = .ok w) (hd : decode w = .ok i) :
    s.cycle = .ofOutcome (exec i s.advance) := by
  simp only [State.cycle, hf, hd]

@[simp] theorem StepResult.outcome_ofOutcome (o : Host.Outcome State Fault Refusal) :
    (StepResult.ofOutcome o).outcome = o := by
  cases o <;> rfl

theorem step_of_fetch_error {s : State} {k : Fault} (hf : s.fetch = .error k) : step s = .fault k :=
  congrArg StepResult.outcome (State.cycle_of_fetch_error hf)

theorem step_of_decode_error {s : State} {w : Word} {e : DecodeError} (hf : s.fetch = .ok w)
    (hd : decode w = .error e) : step s = .next s.advance :=
  congrArg StepResult.outcome (State.cycle_of_decode_error hf hd)

theorem step_of_decode_ok {s : State} {w : Word} {i : Instr} (hf : s.fetch = .ok w) (hd : decode w = .ok i) :
    step s = exec i s.advance := by
  rw [step, State.cycle_of_decode_ok hf hd, StepResult.outcome_ofOutcome]

/-! ### The instructions that can fault, when they answer a next state -/

theorem execDrw_eq_next {x y : Reg} {n : Nibble} {s t : State} (h : execDrw x y n s = .next t) :
    ∃ d hit, t = (s.setDisplay d).setFlag hit := by
  simp only [execDrw] at h
  split at h
  · cases h; exact ⟨_, _, rfl⟩
  · cases h

theorem execSkp_eq_next {x : Reg} {s t : State} (h : execSkp x s = .next t) : ∃ c, t = s.skipIf c := by
  simp only [execSkp] at h
  split at h
  · cases h; exact ⟨_, rfl⟩
  · cases h

theorem execSknp_eq_next {x : Reg} {s t : State} (h : execSknp x s = .next t) : ∃ c, t = s.skipIf c := by
  simp only [execSknp] at h
  split at h
  · cases h; exact ⟨_, rfl⟩
  · cases h

theorem execLdRegs_eq_next {x : Reg} {s t : State} (h : execLdRegs x s = .next t) : ∃ bs, t = s.setBlock 0 bs := by
  simp only [execLdRegs] at h
  split at h
  · cases h; exact ⟨_, rfl⟩
  · cases h

theorem execRet_eq_next {s t : State} (h : execRet s = .next t) : ∃ w n, t = { s with sp := n, pc := w } := by
  simp only [execRet] at h
  split at h
  next w u hpop =>
    obtain ⟨-, -, rfl⟩ := (s.pop_eq_ok_iff w u).1 hpop
    cases h
    exact ⟨_, _, rfl⟩
  next => cases h

theorem execCall_eq_next {addr : Addr} {s t : State} (h : execCall addr s = .next t) :
    ∃ v n, t = { s with stack := v, sp := n, pc := addrWord addr } := by
  simp only [execCall] at h
  split at h
  next u hpush =>
    obtain ⟨_, rfl⟩ := (s.push_eq_ok_iff _ u).1 hpush
    cases h
    exact ⟨_, _, rfl⟩
  next => cases h

theorem execLdVxK_eq_next {x : Reg} {s t : State} (h : execLdVxK x s = .next t) :
    (∃ b, t = s.setV x b) ∨ t = s.rewind := by
  simp only [execLdVxK] at h
  split at h
  · cases h; exact .inl ⟨_, rfl⟩
  · cases h; exact .inr rfl

/-- A finished store has written memory alone. -/
theorem finish_writeSpan_eq_next {s t : State} {a : Nat} {bs : List Byte}
    (h : finish (s.writeSpan a bs) = .next t) : ∃ m, t = s.setMem m := by
  obtain ⟨-, ht⟩ := (s.writeSpan_eq_ok_iff a bs t).1 ((finish_eq_next_iff _ _).1 h)
  exact ⟨_, ht⟩

/-! ### The frame of each operation -/

theorem KeepsAllBut.refl (ps : List Part) (s : State) : KeepsAllBut ps s s := fun p _ => SamePart.refl p s

theorem State.withV_keepsAllBut (s : State) (v : Vector Byte 16) : KeepsAllBut [.regs] s { s with v := v } := by
  intro p hp
  cases p with
  | regs => exact absurd (by simp) hp
  | mem | i | pc | stack | sp | dt | st | display | keys | draws => simp [SamePart]

theorem State.setI_keepsAllBut (s : State) (w : Word) : KeepsAllBut [.i] s (s.setI w) := by
  intro p hp
  cases p with
  | i => exact absurd (by simp) hp
  | regs | mem | pc | stack | sp | dt | st | display | keys | draws => simp [SamePart]

theorem State.setPc_keepsAllBut (s : State) (w : Word) : KeepsAllBut [.pc] s (s.setPc w) := by
  intro p hp
  cases p with
  | pc => exact absurd (by simp) hp
  | regs | mem | i | stack | sp | dt | st | display | keys | draws => simp [SamePart]

theorem State.setDt_keepsAllBut (s : State) (b : Byte) : KeepsAllBut [.dt] s (s.setDt b) := by
  intro p hp
  cases p with
  | dt => exact absurd (by simp) hp
  | regs | mem | i | pc | stack | sp | st | display | keys | draws => simp [SamePart]

theorem State.setSt_keepsAllBut (s : State) (b : Byte) : KeepsAllBut [.st] s (s.setSt b) := by
  intro p hp
  cases p with
  | st => exact absurd (by simp) hp
  | regs | mem | i | pc | stack | sp | dt | display | keys | draws => simp [SamePart]

theorem State.setMem_keepsAllBut (s : State) (m : Memory) : KeepsAllBut [.mem] s (s.setMem m) := by
  intro p hp
  cases p with
  | mem => exact absurd (by simp) hp
  | regs | i | pc | stack | sp | dt | st | display | keys | draws => simp [SamePart]

theorem State.setDisplay_keepsAllBut (s : State) (d : Display) : KeepsAllBut [.display] s (s.setDisplay d) := by
  intro p hp
  cases p with
  | display => exact absurd (by simp) hp
  | regs | mem | i | pc | stack | sp | dt | st | keys | draws => simp [SamePart]

theorem State.withDraws_keepsAllBut (s : State) (n : Nat) : KeepsAllBut [.draws] s { s with draws := n } := by
  intro p hp
  cases p with
  | draws => exact absurd (by simp) hp
  | regs | mem | i | pc | stack | sp | dt | st | display | keys => simp [SamePart, State.getV]

theorem State.withSp_keepsAllBut (s : State) (n : Fin 17) : KeepsAllBut [.sp] s { s with sp := n } := by
  intro p hp
  cases p with
  | sp => exact absurd (by simp) hp
  | regs | mem | i | pc | stack | dt | st | display | keys | draws => simp [SamePart, State.getV]

theorem State.withStack_keepsAllBut (s : State) (v : Vector Word 16) : KeepsAllBut [.stack] s { s with stack := v } := by
  intro p hp
  cases p with
  | stack => exact absurd (by simp) hp
  | regs | mem | i | pc | sp | dt | st | display | keys | draws => simp [SamePart, State.getV]

/-- A register write changes registers alone. -/
theorem State.setV_keepsAllBut (s : State) (x : Reg) (b : Byte) : KeepsAllBut [.regs] s (s.setV x b) :=
  s.withV_keepsAllBut _

theorem State.setVThenFlag_keepsAllBut (s : State) (x : Reg) (b : Byte) (c : Bool) :
    KeepsAllBut [.regs] s (s.setVThenFlag x b c) :=
  s.withV_keepsAllBut _

theorem State.setBlock_keepsAllBut (s : State) (k : Nat) (bs : List Byte) : KeepsAllBut [.regs] s (s.setBlock k bs) := by
  rw [State.setBlock_others]
  exact s.withV_keepsAllBut _

theorem State.skipIf_keepsAllBut (s : State) (c : Bool) : KeepsAllBut [.pc] s (s.skipIf c) := by
  cases c with
  | false => exact .refl _ s
  | true => exact s.setPc_keepsAllBut _

/-- What two updates in a row keep: all but the parts of the one and of the other. -/
theorem KeepsAllBut.append {ps qs : List Part} {s t u : State} (h : KeepsAllBut ps s t) (h' : KeepsAllBut qs t u) :
    KeepsAllBut (ps ++ qs) s u :=
  (h.mono fun _ => List.mem_append_left qs).trans (h'.mono fun _ => List.mem_append_right ps)

/-! ### The frame of each instruction -/

theorem execRet_keepsAllBut {s t : State} (h : execRet s = .next t) : KeepsAllBut [.pc, .sp] s t := by
  obtain ⟨w, n, rfl⟩ := execRet_eq_next h
  exact (s.setPc_keepsAllBut w).append ((s.setPc w).withSp_keepsAllBut n)

theorem execCall_keepsAllBut {addr : Addr} {s t : State} (h : execCall addr s = .next t) :
    KeepsAllBut [.pc, .stack, .sp] s t := by
  obtain ⟨v, n, rfl⟩ := execCall_eq_next h
  have hpc := s.setPc_keepsAllBut (addrWord addr)
  have hstack := (s.setPc (addrWord addr)).withStack_keepsAllBut v
  exact (hpc.append hstack).append (State.withSp_keepsAllBut _ n)

theorem execRnd_keepsAllBut {x : Reg} {nn : Byte} {s t : State} (h : execRnd x nn s = .next t) :
    KeepsAllBut [.regs, .draws] s t := by
  cases h
  exact ((s.withDraws_keepsAllBut _).append (s.drawRandom.2.setV_keepsAllBut x _)).mono (by simp)

theorem execDrw_keepsAllBut {x y : Reg} {n : Nibble} {s t : State} (h : execDrw x y n s = .next t) :
    KeepsAllBut [.regs, .display] s t := by
  obtain ⟨d, hit, rfl⟩ := execDrw_eq_next h
  exact ((s.setDisplay_keepsAllBut d).append ((s.setDisplay d).setV_keepsAllBut vF _)).mono (by simp)

theorem execLdVxK_keepsAllBut {x : Reg} {s t : State} (h : execLdVxK x s = .next t) :
    KeepsAllBut [.regs, .pc] s t := by
  obtain ⟨b, rfl⟩ | rfl := execLdVxK_eq_next h
  · exact (s.setV_keepsAllBut x b).mono (by simp)
  · exact (s.setPc_keepsAllBut _).mono (by simp)

/-- Every instruction keeps the parts that the table of 10_state.md R38 does not mark as written by it. -/
theorem exec_keepsAllBut {i : Instr} {s t : State} (h : exec i s = .next t) : KeepsAllBut (writesOf i) s t := by
  cases i with
  | sys => cases h; exact .refl _ s
  | cls => cases h; exact s.setDisplay_keepsAllBut _
  | ret => exact execRet_keepsAllBut h
  | call => exact execCall_keepsAllBut h
  | jp | jpV0 => cases h; exact s.setPc_keepsAllBut _
  | seImm | sneImm | seReg | sneReg => cases h; exact s.skipIf_keepsAllBut _
  | skp => obtain ⟨c, rfl⟩ := execSkp_eq_next h; exact s.skipIf_keepsAllBut c
  | sknp => obtain ⟨c, rfl⟩ := execSknp_eq_next h; exact s.skipIf_keepsAllBut c
  | ldImm | addImm | ldReg | orReg | andReg | xorReg | ldVxDt => cases h; exact s.setV_keepsAllBut _ _
  | addReg | sub | shr | subn | shl => cases h; exact s.setVThenFlag_keepsAllBut _ _ _
  | rnd => exact execRnd_keepsAllBut h
  | drw => exact execDrw_keepsAllBut h
  | ldVxK => exact execLdVxK_keepsAllBut h
  | ldDtVx => cases h; exact s.setDt_keepsAllBut _
  | ldStVx => cases h; exact s.setSt_keepsAllBut _
  | ldI | addI | ldF => cases h; exact s.setI_keepsAllBut _
  | ldB | stRegs => obtain ⟨m, rfl⟩ := finish_writeSpan_eq_next h; exact s.setMem_keepsAllBut m
  | ldRegs => obtain ⟨bs, rfl⟩ := execLdRegs_eq_next h; exact s.setBlock_keepsAllBut 0 bs

/-- No instruction writes the keypad (10_state.md R32). -/
theorem keys_notMem_writesOf (i : Instr) : Part.keys ∉ writesOf i := by
  cases i <;> simp [writesOf]

/-- Keypads that agree key by key are the same. -/
theorem KeepsAllBut.keys_eq {ps : List Part} {s t : State} (h : KeepsAllBut ps s t) (hps : .keys ∉ ps) :
    t.keys = s.keys :=
  Vector.ext fun k hk => h .keys hps ⟨k, hk⟩

/-- Settles O47: the frame of each instruction, of which the keypad is always a part. -/
theorem instructionsWriteOnlyWhatTheTableSays : Obligations.InstructionsWriteOnlyWhatTheTableSays := by
  intro i s t h
  have hframe := exec_keepsAllBut h
  exact ⟨hframe, hframe.keys_eq (keys_notMem_writesOf i)⟩

/-! ### What no instruction observes -/

/-- How an outcome of one run and an outcome of another correspond: the same fault, the same refusal, or related states. -/
inductive SameEnd (R : State → State → Prop) :
    Host.Outcome State Fault Refusal → Host.Outcome State Fault Refusal → Prop
  | next {t u : State} (related : R t u) : SameEnd R (.next t) (.next u)
  | fault (k : Fault) : SameEnd R (.fault k) (.fault k)
  | refused (r : Refusal) : SameEnd R (.refused r) (.refused r)

/-- Corresponding outcomes fault alike. -/
theorem SameEnd.fault_eq {R : State → State → Prop} {o o' : Host.Outcome State Fault Refusal} (h : SameEnd R o o')
    {k : Fault} (ho : o = .fault k) : o' = .fault k := by
  subst ho; cases h; rfl

/-- Corresponding outcomes answer related states. -/
theorem SameEnd.exists_next {R : State → State → Prop} {o o' : Host.Outcome State Fault Refusal} (h : SameEnd R o o')
    {t : State} (ho : o = .next t) : ∃ u, o' = .next u ∧ R t u := by
  subst ho
  cases h with
  | next related => exact ⟨_, rfl, related⟩

/-- The two things in a state that no instruction observes. -/
inductive Hidden where
  /-- The sound timer (10_state.md R30). -/
  | soundTimer
  /-- The stack slots not in use (10_state.md R29, D11). -/
  | unusedSlots

/-- With `sp` slots in use, slot `k` is not among the hidden things. -/
def Hidden.showsSlot : Hidden → Nat → Nat → Prop
  | .soundTimer, _, _ => True
  | .unusedSlots, sp, k => k < sp

theorem Hidden.showsSlot_of_lt (hd : Hidden) {sp k : Nat} (h : k < sp) : hd.showsSlot sp k := by
  cases hd with
  | soundTimer => trivial
  | unusedSlots => exact h

/-- A slot that a push shows is the one it writes or was shown before. -/
theorem Hidden.showsSlot_of_succ {hd : Hidden} {sp k : Nat} (h : hd.showsSlot (sp + 1) k) (hne : k ≠ sp) :
    hd.showsSlot sp k := by
  cases hd with
  | soundTimer => trivial
  | unusedSlots => simp only [Hidden.showsSlot] at h ⊢; omega

/-- A slot shown after a pop was shown before it. -/
theorem Hidden.showsSlot_of_pred {hd : Hidden} {sp k : Nat} (h : hd.showsSlot (sp - 1) k) : hd.showsSlot sp k := by
  cases hd with
  | soundTimer => trivial
  | unusedSlots => simp only [Hidden.showsSlot] at h ⊢; omega

/-- The states that differ from `s` in the hidden things alone: the sound timer and the stack are given anew, and what of
them is not hidden is as in `s`. -/
inductive Alike (hd : Hidden) (s : State) : State → Prop
  | mk (b : Byte) (v : Vector Word 16) (st : hd ≠ .soundTimer → b = s.st)
      (slots : ∀ k : Fin 16, hd.showsSlot s.sp.val k.val → v[k] = s.stack[k]) :
      Alike hd s { s with st := b, stack := v }

theorem Alike.advance {hd : Hidden} {s t : State} (h : Alike hd s t) : Alike hd s.advance t.advance := by
  obtain ⟨b, v, st, slots⟩ := h
  exact .mk b v st slots

theorem Alike.skipIf {hd : Hidden} {s t : State} (h : Alike hd s t) (c : Bool) : Alike hd (s.skipIf c) (t.skipIf c) := by
  cases c with
  | false => exact h
  | true => exact h.advance

theorem Alike.setV {hd : Hidden} {s t : State} (h : Alike hd s t) (x : Reg) (b : Byte) :
    Alike hd (s.setV x b) (t.setV x b) := by
  obtain ⟨c, v, st, slots⟩ := h
  exact .mk c v st slots

theorem Alike.setBlock {hd : Hidden} {s t : State} (h : Alike hd s t) (k : Nat) (bs : List Byte) :
    Alike hd (s.setBlock k bs) (t.setBlock k bs) := by
  induction bs generalizing s t k with
  | nil => exact h
  | cons b bs ih => exact ih (h.setV _ b) (k + 1)

/-! What an execute phase reads before it branches is the same in the two states, because none of it is hidden. -/

theorem Alike.readSpan_eq {hd : Hidden} {s t : State} (h : Alike hd s t) (a n : Nat) :
    t.readSpan a n = s.readSpan a n := by
  obtain ⟨b, v, st, slots⟩ := h; rfl

theorem Alike.testKey_eq {hd : Hidden} {s t : State} (h : Alike hd s t) (k : Byte) : t.testKey k = s.testKey k := by
  obtain ⟨b, v, st, slots⟩ := h; rfl

theorem Alike.leastKey_eq {hd : Hidden} {s t : State} (h : Alike hd s t) : t.leastKey = s.leastKey := by
  obtain ⟨b, v, st, slots⟩ := h; rfl

theorem Alike.fetch_eq {hd : Hidden} {s t : State} (h : Alike hd s t) : t.fetch = s.fetch := by
  obtain ⟨b, v, st, slots⟩ := h; rfl

theorem Alike.getV_eq {hd : Hidden} {s t : State} (h : Alike hd s t) (x : Reg) : t.getV x = s.getV x := by
  obtain ⟨b, v, st, slots⟩ := h; rfl

theorem Alike.i_eq {hd : Hidden} {s t : State} (h : Alike hd s t) : t.i = s.i := by
  obtain ⟨b, v, st, slots⟩ := h; rfl

/-! ### The execute phase observes nothing hidden -/

/-- The slot written and the count are the same in both, and the other slots shown were shown before. -/
theorem execCall_sameEnd {hd : Hidden} {s t : State} (h : Alike hd s t) (addr : Addr) :
    SameEnd (Alike hd) (execCall addr s) (execCall addr t) := by
  obtain ⟨b, v, st, slots⟩ := h
  simp only [execCall, State.push]
  split_ifs with hsp
  · refine .next (.mk b (v.set s.sp.val s.pc hsp) st fun k hk => ?_)
    by_cases hne : k.val = s.sp.val
    · simp [hne]
    · simpa [Vector.getElem_set, Ne.symm hne] using slots k (hd.showsSlot_of_succ hk hne)
  · exact .fault _

/-- The slot read is in use, and so it is shown. -/
theorem execRet_sameEnd {hd : Hidden} {s t : State} (h : Alike hd s t) :
    SameEnd (Alike hd) (execRet s) (execRet t) := by
  obtain ⟨b, v, st, slots⟩ := h
  simp only [execRet, State.pop]
  split_ifs with hsp
  · exact .fault _
  · have hread : v[s.sp.val - 1]'(by omega) = s.stack[s.sp.val - 1]'(by omega) :=
      slots ⟨s.sp.val - 1, by omega⟩ (hd.showsSlot_of_lt (by simp only; omega))
    simp only [hread]
    exact .next (.mk b v st fun k hk => slots k (hd.showsSlot_of_pred hk))

theorem execDrw_sameEnd {hd : Hidden} {s t : State} (h : Alike hd s t) (x y : Reg) (n : Nibble) :
    SameEnd (Alike hd) (execDrw x y n s) (execDrw x y n t) := by
  simp only [execDrw, h.i_eq, h.readSpan_eq, h.getV_eq]
  obtain ⟨b, v, st, slots⟩ := h
  split
  · exact .next (.mk b v st slots)
  · exact .fault _

theorem execSkp_sameEnd {hd : Hidden} {s t : State} (h : Alike hd s t) (x : Reg) :
    SameEnd (Alike hd) (execSkp x s) (execSkp x t) := by
  simp only [execSkp, h.getV_eq, h.testKey_eq]
  split
  · exact .next (h.skipIf _)
  · exact .fault _

theorem execSknp_sameEnd {hd : Hidden} {s t : State} (h : Alike hd s t) (x : Reg) :
    SameEnd (Alike hd) (execSknp x s) (execSknp x t) := by
  simp only [execSknp, h.getV_eq, h.testKey_eq]
  split
  · exact .next (h.skipIf _)
  · exact .fault _

theorem execLdVxK_sameEnd {hd : Hidden} {s t : State} (h : Alike hd s t) (x : Reg) :
    SameEnd (Alike hd) (execLdVxK x s) (execLdVxK x t) := by
  simp only [execLdVxK, h.leastKey_eq]
  split
  · exact .next (h.setV x _)
  · obtain ⟨b, v, st, slots⟩ := h
    exact .next (.mk b v st slots)

theorem execLdRegs_sameEnd {hd : Hidden} {s t : State} (h : Alike hd s t) (x : Reg) :
    SameEnd (Alike hd) (execLdRegs x s) (execLdRegs x t) := by
  simp only [execLdRegs, h.i_eq, h.readSpan_eq]
  split
  · exact .next (h.setBlock 0 _)
  · exact .fault _

theorem finish_writeSpan_sameEnd {hd : Hidden} {s t : State} (h : Alike hd s t) (a : Nat) (bs : List Byte) :
    SameEnd (Alike hd) (finish (s.writeSpan a bs)) (finish (t.writeSpan a bs)) := by
  obtain ⟨b, v, st, slots⟩ := h
  simp only [State.writeSpan]
  split
  · exact .next (.mk b v st slots)
  · exact .fault _

/-- Every instruction ends alike from states that differ in the hidden things alone. -/
theorem exec_sameEnd {hd : Hidden} {s t : State} (h : Alike hd s t) (i : Instr) :
    SameEnd (Alike hd) (exec i s) (exec i t) := by
  cases i with
  | call addr => exact execCall_sameEnd h addr
  | ret => exact execRet_sameEnd h
  | drw x y n => exact execDrw_sameEnd h x y n
  | skp x => exact execSkp_sameEnd h x
  | sknp x => exact execSknp_sameEnd h x
  | ldVxK x => exact execLdVxK_sameEnd h x
  | ldRegs x => exact execLdRegs_sameEnd h x
  | seImm | sneImm | seReg | sneReg =>
    simp only [exec, execSeImm, execSneImm, execSeReg, execSneReg, h.getV_eq]
    exact .next (h.skipIf _)
  | ldB | stRegs => obtain ⟨b, v, st, slots⟩ := h; exact finish_writeSpan_sameEnd (.mk b v st slots) _ _
  | ldStVx x => obtain ⟨b, v, st, slots⟩ := h; exact .next (.mk (s.getV x) v (fun _ => rfl) slots)
  | cls | sys | jp | ldImm | addImm | ldReg | orReg | andReg | xorReg | addReg | sub | shr | subn | shl | ldI | jpV0 | rnd
  | ldVxDt | ldDtVx | addI | ldF =>
    obtain ⟨b, v, st, slots⟩ := h
    exact .next (.mk b v st slots)

/-- Every step ends alike from states that differ in the hidden things alone: the fetch reads neither. -/
theorem step_sameEnd {hd : Hidden} {s t : State} (h : Alike hd s t) : SameEnd (Alike hd) (step s) (step t) := by
  cases hf : s.fetch with
  | error k =>
    rw [step_of_fetch_error hf, step_of_fetch_error (h.fetch_eq.trans hf)]
    exact .fault k
  | ok w =>
    have hf' : t.fetch = .ok w := h.fetch_eq.trans hf
    cases hd : decode w with
    | error e =>
      rw [step_of_decode_error hf hd, step_of_decode_error hf' hd]
      exact .next h.advance
    | ok i =>
      rw [step_of_decode_ok hf hd, step_of_decode_ok hf' hd]
      exact exec_sameEnd h.advance i

/-! ### The sound timer -/

theorem State.alike_setSt (s : State) (b : Byte) : Alike .soundTimer s (s.setSt b) :=
  .mk b s.stack (fun hne => absurd rfl hne) fun _ _ => rfl

theorem Alike.keepsAllBut_st {s t : State} (h : Alike .soundTimer s t) : KeepsAllBut [.st] s t := by
  obtain ⟨b, v, -, slots⟩ := h
  have hstack : v = s.stack := Vector.ext fun k hk => slots ⟨k, hk⟩ trivial
  subst hstack
  exact s.setSt_keepsAllBut b

/-- Settles O51: the steps end alike from states that differ in the sound timer alone. -/
theorem soundTimerIsReadByNoInstruction : Obligations.SoundTimerIsReadByNoInstruction := by
  intro s b
  have hend := step_sameEnd (s.alike_setSt b)
  refine ⟨fun k hk => hend.fault_eq hk, fun t ht => ?_⟩
  obtain ⟨u, hu, halike⟩ := hend.exists_next ht
  exact ⟨u, hu, halike.keepsAllBut_st⟩

/-! ### The stack slots not in use -/

theorem State.alike_withStack {s : State} {v : Vector Word 16}
    (hv : ∀ k : Fin 16, k.val < s.sp.val → v[k] = s.stack[k]) : Alike .unusedSlots s { s with stack := v } :=
  .mk s.st v (fun _ => rfl) hv

theorem Alike.keepsAllBut_stack {s t : State} (h : Alike .unusedSlots s t) :
    KeepsAllBut [.stack] s t ∧ ∀ k : Fin 16, k.val < s.sp.val → t.stack[k] = s.stack[k] := by
  obtain ⟨b, v, st, slots⟩ := h
  obtain rfl : b = s.st := st (by simp)
  exact ⟨s.withStack_keepsAllBut v, slots⟩

/-- Settles O52: the steps end alike from states that differ in the slots not in use alone. -/
theorem unusedStackSlotsAreNeverSeen : Obligations.UnusedStackSlotsAreNeverSeen := by
  intro s v hv
  have hend := step_sameEnd (State.alike_withStack hv)
  refine ⟨fun k hk => hend.fault_eq hk, fun t ht => ?_⟩
  obtain ⟨u, hu, halike⟩ := hend.exists_next ht
  exact ⟨u, hu, halike.keepsAllBut_stack⟩

/-! ### The flag -/

theorem flagByte_eq_zero_or_one (c : Bool) : flagByte c = 0x00#8 ∨ flagByte c = 0x01#8 := by
  cases c with
  | false => exact .inl rfl
  | true => exact .inr rfl

/-- Settles O31: VF as a flag is written last, so that it holds the flag even where it is the destination. -/
theorem flagWritersLeaveVFZeroOrOne : Obligations.FlagWritersLeaveVFZeroOrOne := by
  intro s t x y n i hi h
  suffices ∃ c, t.getV vF = flagByte c by
    obtain ⟨c, hc⟩ := this
    rw [hc]
    exact flagByte_eq_zero_or_one c
  simp only [List.mem_cons, List.not_mem_nil, or_false] at hi
  obtain rfl | rfl | rfl | rfl | rfl | rfl := hi
  on_goal 6 =>
    obtain ⟨d, hit, rfl⟩ := execDrw_eq_next h
    exact ⟨hit, State.getV_setFlag_vF _ _⟩
  all_goals
    cases h
    exact ⟨_, State.getV_setVThenFlag_vF _ _ _ _⟩

/-! ### The invariants -/

/-- Settles O48: by the shape of what a step does to `pc`, the stack and memory. -/
theorem stepKeepsTheMemoryCanonical : Obligations.StepKeepsTheMemoryCanonical :=
  fun _ _ hs h => step_keeps_memInv hs h

/-- Settles O49: by the shape of what a step does to `pc`, the stack and memory. -/
theorem stepKeepsPcAndStackInRange : Obligations.StepKeepsPcAndStackInRange :=
  fun _ _ hs h => step_keeps_rangeInv hs h

/-- Settles O2: both are decided of the one state after reset. -/
theorem resetMeetsTheInvariants : Obligations.ResetMeetsTheInvariants := ⟨reset_memInv, reset_rangeInv⟩

/-! ### One step -/

/-- Settles O10: the word given is the one fetched, and the cycle ends as its instruction does. -/
theorem stepRunsTheDecodedInstruction : Obligations.StepRunsTheDecodedInstruction := by
  intro s w i hpc hw hd
  have hbytes : w = wordOfBytes (s.mem.read s.pc.toNat) (s.mem.read (s.pc.toNat + 1)) :=
    BitVec.eq_of_toNat_eq (hw.trans (wordOfBytes_toNat _ _).symm)
  have hf : s.fetch = .ok w := (s.fetch_eq_ok_iff w).2 ⟨hpc, hbytes⟩
  have hcycle : s.cycle = .ofOutcome (exec i s.advance) := State.cycle_of_decode_ok hf hd
  refine ⟨wellFormed_of_decode hd, step_of_decode_ok hf hd, by bv_omega, fun t ht => ?_, fun k hk => ?_⟩
  · exact hcycle.trans (congrArg StepResult.ofOutcome ht)
  · exact hcycle.trans (congrArg StepResult.ofOutcome hk)

/-- Settles O11: by the bounds check of the fetch. -/
theorem fetchBeyondMemoryFaults : Obligations.FetchBeyondMemoryFaults := by
  intro s hpc
  have hf : s.fetch = .error .memOutOfBounds := (s.fetch_eq_error_iff _).2 ⟨by omega, rfl⟩
  exact ⟨step_of_fetch_error hf, State.cycle_of_fetch_error hf⟩

/-! ### Reset -/

/-- The font is the 80 bytes below 0x050; every later address is 0 at reset (20_memory.md R51). -/
theorem resetByte_of_le {a : Nat} (h : 0x50 ≤ a) : resetByte a = 0x00#8 :=
  List.getD_eq_default _ _ h

theorem getV_reset (x : Reg) : State.reset.getV x = 0x00#8 := Vector.getElem_replicate _

/-- Settles O1: component by component, the glyphs byte by byte. -/
theorem resetLeavesTheSpecValues : Obligations.ResetLeavesTheSpecValues := by
  refine ⟨getV_reset, rfl, rfl, rfl, fun k => Vector.getElem_replicate _, rfl, rfl, Display.pixel_clear,
    fun k => Vector.getElem_replicate _, fun a ha => resetByte_of_le ha, ?glyphs⟩
  case glyphs => decide

end Sys2Proof.Machine
end

section
/-! SUPPORT. What a span of memory holds after bytes are stored over it, and what a block store and the loader store; with
them the statements about memory (20_memory.md). -/

namespace Sys2Proof.Machine

/-! ### A span of memory after a store -/

/-- A span inside the memory reads back as the bytes stored over it. -/
theorem Memory.read_writeAll_add {m : Memory} {a : Nat} {vs : List Byte} (hm : m.wf = true)
    (ha : a + vs.length ≤ 4096) (k : Nat) (hk : k < vs.length) : (m.writeAll a vs).read (a + k) = vs[k] := by
  rw [Memory.read_writeAll hm (.inr ha), if_pos (by omega), Nat.add_sub_cancel_left]
  exact List.getD_eq_getElem vs 0x00#8 hk

/-- A store over a span inside the memory leaves every byte outside it. -/
theorem State.setMem_writeAll_keepsMemOutside {s : State} {a : Nat} {vs : List Byte} (hs : s.MemInv)
    (ha : a + vs.length ≤ 4096) : KeepsMemOutside a vs.length s (s.setMem (s.mem.writeAll a vs)) := by
  intro b hb
  rw [State.setMem_mem, Memory.read_writeAll hs (.inr ha), if_neg (by omega)]

/-! ### The block store -/

/-- A block store whose last byte lies in the memory completes (47_familyF.md R187). -/
theorem exec_stRegs_of_lt {s : State} {x : Reg} (h : s.i.toNat + x.toNat < 4096) :
    exec (.stRegs x) s = .next (s.setMem (s.mem.writeAll s.i.toNat (s.blockValues x))) := by
  refine (finish_eq_next_iff _ _).2 ((s.writeSpan_eq_ok_iff _ _ _).2 ⟨.inr ?_, rfl⟩)
  rw [State.blockValues_length]
  omega

/-- Where V0 to Vx are stored, each register is read back at its place. -/
theorem State.read_writeAll_blockValues {s : State} {a : Nat} {x k : Reg} (hs : s.MemInv)
    (ha : a + x.toNat < 4096) (hk : k.toNat ≤ x.toNat) :
    (s.mem.writeAll a (s.blockValues x)).read (a + k.toNat) = s.getV k := by
  have hlen : (s.blockValues x).length = x.toNat + 1 := s.blockValues_length x
  rw [Memory.read_writeAll hs (.inr (by omega)), if_pos (by omega), Nat.add_sub_cancel_left]
  exact s.blockValues_getD x k hk

/-- The same by address: an address that the block covers holds the register whose number is its distance from the start. -/
theorem State.read_writeAll_blockValues_of_mem_span {s : State} {a b : Nat} {x : Reg} (hs : s.MemInv)
    (ha : a + x.toNat < 4096) (hab : a ≤ b) (hbx : b ≤ a + x.toNat) :
    (s.mem.writeAll a (s.blockValues x)).read b = s.getV (BitVec.ofNat 4 (b - a)) := by
  have hk : (BitVec.ofNat 4 (b - a)).toNat = b - a := Nat.mod_eq_of_lt (by omega)
  have hread := State.read_writeAll_blockValues (k := BitVec.ofNat 4 (b - a)) hs ha (by omega)
  rwa [hk, Nat.add_sub_of_le hab] at hread

/-- Settles O44: the two bytes at `pc` are covered by the store, and the fetch reads memory as it then is. -/
theorem storedBytesAreFetchedNext : Obligations.StoredBytesAreFetchedNext := by
  intro s x hs hx hlo hhi
  refine ⟨_, _, exec_stRegs_of_lt hx, (State.fetch_eq_ok_iff _ _).2 ⟨?inside, rfl⟩, ?word⟩
  case inside => rw [State.setMem_pc]; omega
  case word =>
    rw [wordOfBytes_toNat, State.setMem_mem, State.setMem_pc,
      State.read_writeAll_blockValues_of_mem_span hs hx hlo (by omega),
      State.read_writeAll_blockValues_of_mem_span hs hx (by omega) hhi]

/-! ### The loader -/

/-- A program that is not too long is loaded before the first step (20_memory.md R62). -/
theorem Block.move_load_of_le {s : State} {bytes : List Byte} (h : bytes.length ≤ Config.maxProgram) :
    (Block.running s false).move (.load bytes) = .ok (.done, .running (s.loadImage bytes) false) :=
  if_pos h

/-- A longer program is refused (decision D13). -/
theorem Block.move_load_of_lt {s : State} {bytes : List Byte} (h : Config.maxProgram < bytes.length) :
    (Block.running s false).move (.load bytes) = .error .programTooLong :=
  if_neg (by omega)

/-- Settles O56: a program of at most 3584 bytes ends inside the memory, so that it is read back and the rest is kept. -/
theorem loadWritesTheImageAtTheOrigin : Obligations.LoadWritesTheImageAtTheOrigin := by
  refine ⟨fun s bytes hs hlen => ?loaded, fun s bytes hlen => Block.move_load_of_lt hlen, fun s bytes => rfl⟩
  case loaded =>
    have hend : 0x200 + bytes.length ≤ 4096 := by omega
    refine ⟨s.loadImage bytes, Block.move_load_of_le hlen, ?bytes, ?outside, s.setMem_keepsAllBut _⟩
    case bytes => exact Memory.read_writeAll_add hs hend
    case outside => exact State.setMem_writeAll_keepsMemOutside hs hend

end Sys2Proof.Machine
end

section
/-! SUPPORT. The Decoder and the encoder are one map (30_encoding.md R73, R74): a word decodes to an instruction exactly
when that instruction is well-formed and its word is the given one on the bits its form uses. With it the statements
about the encoding. -/

namespace Sys2Proof

/-! ### The families with a dispatch of their own, by the high nibble -/

theorem decode_of_family0 {w : Word} (h : fieldN1 w = 0x0#4) : decode w = .ok (decodeFamily0 w) := by
  rw [decode, h]; rfl

theorem decode_of_family8 {w : Word} (h : fieldN1 w = 0x8#4) : decode w = decodeFamily8 w := by
  rw [decode, h]; rfl

theorem decode_of_familyE {w : Word} (h : fieldN1 w = 0xE#4) : decode w = decodeFamilyE w := by
  rw [decode, h]; rfl

theorem decode_of_familyF {w : Word} (h : fieldN1 w = 0xF#4) : decode w = decodeFamilyF w := by
  rw [decode, h]; rfl

theorem decodeFamily0_of_ne {w : Word} (hcls : w ≠ 0x00E0#16) (hret : w ≠ 0x00EE#16) :
    decodeFamily0 w = .sys (fieldAddr w) := by
  rw [decodeFamily0, if_neg hcls, if_neg hret]

/-! ### Decoding an encoding -/

/-- The address of a well-formed legacy call tells its word from 0x00E0 and 0x00EE. -/
theorem decode_encode_sys {addr : Addr} (hwf : (Instr.sys addr).wellFormed = true) :
    decode (encode (.sys addr)) = .ok (.sys addr) := by
  simp only [Instr.wellFormed, Bool.and_eq_true, bne_iff_ne] at hwf
  obtain ⟨hcls, hret⟩ := hwf
  have haddr : ∀ {v : Word}, wordNNN 0x0#4 addr = v → addr = fieldAddr v := by
    rintro _ rfl
    exact (fieldAddr_wordNNN _ _).symm
  rw [encode, decode_of_family0 (fieldN1_wordNNN _ _),
    decodeFamily0_of_ne (fun h => hcls (haddr h)) (fun h => hret (haddr h)), fieldAddr_wordNNN]

/-- Every operand is read back from the field it was written to; the legacy call alone needs well-formedness. -/
theorem decode_encode {i : Instr} (hwf : i.wellFormed = true) : decode (encode i) = .ok i := by
  cases i with
  | cls | ret => rfl
  | sys => exact decode_encode_sys hwf
  | jp | call | ldI | jpV0 | seImm | sneImm | ldImm | addImm | rnd | seReg | sneReg | drw => simp [encode, decode]
  | ldReg | orReg | andReg | xorReg | addReg | sub | shr | subn | shl =>
    rw [encode, decode_of_family8 (fieldN1_wordXYN _ _ _ _)]
    simp [decodeFamily8]
  | skp | sknp =>
    rw [encode, decode_of_familyE (fieldN1_wordXNN _ _ _)]
    simp [decodeFamilyE]
  | ldVxDt | ldVxK | ldDtVx | ldStVx | addI | ldF | ldB | stRegs | ldRegs =>
    rw [encode, decode_of_familyF (fieldN1_wordXNN _ _ _)]
    simp [decodeFamilyF]

/-- Settles O5: field by field, through the format of each instruction. -/
theorem decodeOfEncodeIsTheInstruction : Obligations.DecodeOfEncodeIsTheInstruction :=
  fun _ => decode_encode

/-! ### Encoding what a word decodes to -/

/-- A form that ignores no bit keeps the whole word. -/
theorem and_mask_ignoring_none (w : Word) : w &&& 0xFFFF#16 = w := BitVec.and_allOnes

/-- A word is put together again from its fields, its family a known one. -/
theorem wordNNN_eq_and_mask {w : Word} {f : Nibble} (hf : fieldN1 w = f) :
    wordNNN f (fieldAddr w) = w &&& 0xFFFF#16 := by
  rw [and_mask_ignoring_none, ← hf, wordNNN_fields]

theorem wordXNN_eq_and_mask {w : Word} {f : Nibble} {nn : Byte} (hf : fieldN1 w = f) (hn : fieldNN w = nn) :
    wordXNN f (fieldX w) nn = w &&& 0xFFFF#16 := by
  rw [and_mask_ignoring_none, ← hf, ← hn, wordXNN_fields]

theorem wordXYN_eq_and_mask {w : Word} {f n : Nibble} (hf : fieldN1 w = f) (hn : fieldN w = n) :
    wordXYN f (fieldX w) (fieldY w) n = w &&& 0xFFFF#16 := by
  rw [and_mask_ignoring_none, ← hf, ← hn, wordXYN_fields]

/-- The same for a form that ignores `y`, and for one that ignores `N4`: the encoding has 0 there. -/
theorem wordXYN_zero_y_eq_and_mask {w : Word} {f n : Nibble} (hf : fieldN1 w = f) (hn : fieldN w = n) :
    wordXYN f (fieldX w) 0x0#4 n = w &&& 0xFF0F#16 := by
  rw [and_mask_ignoring_y, hf, hn]

theorem wordXYN_zero_n_eq_and_mask {w : Word} {f : Nibble} (hf : fieldN1 w = f) :
    wordXYN f (fieldX w) (fieldY w) 0x0#4 = w &&& 0xFFF0#16 := by
  rw [and_mask_ignoring_n, hf]

theorem encode_decodeFamily0 {w : Word} (hf : fieldN1 w = 0x0#4) :
    encode (decodeFamily0 w) = w &&& usedBits (decodeFamily0 w) := by
  by_cases hcls : w = 0x00E0#16
  · subst hcls; rfl
  by_cases hret : w = 0x00EE#16
  · subst hret; rfl
  rw [decodeFamily0_of_ne hcls hret]
  exact wordNNN_eq_and_mask hf

theorem encode_of_decodeFamily8 {w : Word} {i : Instr} (hf : fieldN1 w = 0x8#4) (h : decodeFamily8 w = .ok i) :
    encode i = w &&& usedBits i := by
  simp only [decodeFamily8] at h
  split at h
  case h_7 hn | h_9 hn =>
    cases h
    exact wordXYN_zero_y_eq_and_mask hf (BitVec.eq_of_toNat_eq hn)
  case h_10 => cases h
  all_goals
    rename_i hn
    cases h
    exact wordXYN_eq_and_mask hf (BitVec.eq_of_toNat_eq hn)

theorem encode_of_decodeFamilyE {w : Word} {i : Instr} (hf : fieldN1 w = 0xE#4) (h : decodeFamilyE w = .ok i) :
    encode i = w &&& usedBits i := by
  simp only [decodeFamilyE] at h
  split at h
  case h_3 => cases h
  all_goals
    rename_i hn
    cases h
    exact wordXNN_eq_and_mask hf (BitVec.eq_of_toNat_eq hn)

theorem encode_of_decodeFamilyF {w : Word} {i : Instr} (hf : fieldN1 w = 0xF#4) (h : decodeFamilyF w = .ok i) :
    encode i = w &&& usedBits i := by
  simp only [decodeFamilyF] at h
  split at h
  case h_10 => cases h
  all_goals
    rename_i hn
    cases h
    exact wordXNN_eq_and_mask hf (BitVec.eq_of_toNat_eq hn)

/-- What a word decodes to has that word as its encoding, on the bits the form uses. -/
theorem encode_of_decode {w : Word} {i : Instr} (h : decode w = .ok i) : encode i = w &&& usedBits i := by
  simp only [decode] at h
  split at h
  case h_1 hf => cases h; exact encode_decodeFamily0 (BitVec.eq_of_toNat_eq hf)
  case h_2 hf | h_3 hf | h_11 hf | h_12 hf => cases h; exact wordNNN_eq_and_mask (BitVec.eq_of_toNat_eq hf)
  case h_4 hf | h_5 hf | h_7 hf | h_8 hf | h_13 hf => cases h; exact wordXNN_eq_and_mask (BitVec.eq_of_toNat_eq hf) rfl
  case h_6 hf | h_10 hf => cases h; exact wordXYN_zero_n_eq_and_mask (BitVec.eq_of_toNat_eq hf)
  case h_9 hf => exact encode_of_decodeFamily8 (BitVec.eq_of_toNat_eq hf) h
  case h_14 hf => cases h; exact wordXYN_eq_and_mask (BitVec.eq_of_toNat_eq hf) rfl
  case h_15 hf => exact encode_of_decodeFamilyE (BitVec.eq_of_toNat_eq hf) h
  case h_16 =>
    have hlt := (fieldN1 w).isLt
    have hf : (fieldN1 w).toNat = 0xF := by grind
    exact encode_of_decodeFamilyF (BitVec.eq_of_toNat_eq hf) h

/-- Settles O6: family by family, a word is put together again from the fields its instruction carries. -/
theorem encodeOfDecodeKeepsTheUsedBits : Obligations.EncodeOfDecodeKeepsTheUsedBits :=
  fun _ _ h => ⟨wellFormed_of_decode h, encode_of_decode h⟩

/-! ### The ignored bits -/

/-- Words of format XYN are equal only with equal fields. -/
theorem wordXYN_inj {f x y n f' x' y' n' : Nibble} :
    wordXYN f x y n = wordXYN f' x' y' n' ↔ f = f' ∧ x = x' ∧ y = y' ∧ n = n' := by
  refine ⟨fun h => ⟨?_, ?_, ?_, ?_⟩, by rintro ⟨rfl, rfl, rfl, rfl⟩; rfl⟩
  · simpa using congrArg fieldN1 h
  · simpa using congrArg fieldX h
  · simpa using congrArg fieldY h
  · simpa using congrArg fieldN h

/-- Where a form ignores `N4`, or `y`, no dispatch looks at that field; any other form's word is the encoding itself. -/
theorem decode_of_encode_eq {w : Word} {i : Instr} (hwf : i.wellFormed = true) (h : encode i = w &&& usedBits i) :
    decode w = .ok i := by
  cases i with
  | seReg x y | sneReg x y =>
    rw [encode, usedBits, and_mask_ignoring_n, wordXYN_inj] at h
    obtain ⟨hf, rfl, rfl, -⟩ := h
    rw [decode, ← hf]; rfl
  | shr x | shl x =>
    rw [encode, usedBits, and_mask_ignoring_y, wordXYN_inj] at h
    obtain ⟨hf, rfl, -, hn⟩ := h
    rw [decode_of_family8 hf.symm, decodeFamily8, ← hn]; rfl
  | _ =>
    rw [← and_mask_ignoring_none w]
    exact (congrArg decode h).symm.trans (decode_encode hwf)

/-- The Decoder and the encoder are one map, on the bits that the forms use (30_encoding.md R79). -/
theorem decode_eq_ok_iff (w : Word) (i : Instr) :
    decode w = .ok i ↔ i.wellFormed = true ∧ encode i = w &&& usedBits i :=
  ⟨encodeOfDecodeKeepsTheUsedBits w i, fun ⟨hwf, h⟩ => decode_of_encode_eq hwf h⟩

/-- Settles O9: what a word decodes to is told by its used bits alone, and a legacy call does nothing. -/
theorem ignoredBitsMakeNoDifference : Obligations.IgnoredBitsMakeNoDifference := by
  refine ⟨fun w w' i h hused => ?_, fun _ _ _ => rfl⟩
  rw [decode_eq_ok_iff] at h ⊢
  rwa [hused]

/-! ### The rows of the opcode map -/

/-- The masks of a row look at bits that the form uses. -/
theorem usedBits_and_opcodeRow_mask (i : Instr) : usedBits i &&& (opcodeRow i).1 = (opcodeRow i).1 := by
  cases i <;> simp only [usedBits, opcodeRow] <;> rfl

/-- The word of an instruction matches its own row. -/
theorem encode_and_opcodeRow_mask (i : Instr) : encode i &&& (opcodeRow i).1 = (opcodeRow i).2 := by
  cases i with
  | cls | ret => rfl
  | sys | jp | call | ldI | jpV0 => rw [encode, opcodeRow, and_mask_family, fieldN1_wordNNN]; rfl
  | seImm | sneImm | ldImm | addImm | rnd => rw [encode, opcodeRow, and_mask_family, fieldN1_wordXNN]; rfl
  | seReg | sneReg | drw => rw [encode, opcodeRow, and_mask_family, fieldN1_wordXYN]; rfl
  | ldReg | orReg | andReg | xorReg | addReg | sub | shr | subn | shl =>
    rw [encode, opcodeRow, and_mask_family_n, fieldN1_wordXYN, fieldN_wordXYN]; rfl
  | skp | sknp | ldVxDt | ldVxK | ldDtVx | ldStVx | addI | ldF | ldB | stRegs | ldRegs =>
    rw [encode, opcodeRow, and_mask_family_nn, fieldN1_wordXNN, fieldNN_wordXNN]; rfl

/-- A word matches the row of the instruction it decodes to, since its used bits are the instruction's word. -/
theorem and_opcodeRow_mask_of_decode {w : Word} {i : Instr} (h : decode w = .ok i) :
    w &&& (opcodeRow i).1 = (opcodeRow i).2 := by
  rw [← encode_and_opcodeRow_mask i, encode_of_decode h, BitVec.and_assoc, usedBits_and_opcodeRow_mask]

/-- The words 0x00E0 and 0x00EE decode to no legacy call. -/
theorem ne_of_decode_sys {w : Word} {a : Addr} (h : decode w = .ok (.sys a)) : w ≠ 0x00E0#16 ∧ w ≠ 0x00EE#16 := by
  constructor <;> rintro rfl <;> cases h

/-- A masked word has the fields of the pattern that the mask lets through. -/
theorem fieldN1_of_and_mask_family {w m : Word} (h : w &&& 0xF000#16 = m) : fieldN1 w = fieldN1 m := by
  rw [← h, and_mask_family, fieldN1_wordXYN]

theorem fields_of_and_mask_family_n {w m : Word} (h : w &&& 0xF00F#16 = m) :
    fieldN1 w = fieldN1 m ∧ fieldN w = fieldN m := by
  rw [← h, and_mask_family_n, fieldN1_wordXYN, fieldN_wordXYN]
  exact ⟨rfl, rfl⟩

theorem fields_of_and_mask_family_nn {w m : Word} (h : w &&& 0xF0FF#16 = m) :
    fieldN1 w = fieldN1 m ∧ fieldNN w = fieldNN m := by
  rw [← h, and_mask_family_nn, fieldN1_wordXNN, fieldNN_wordXNN]
  exact ⟨rfl, rfl⟩

/-- The row of what a word decodes to is the one the word matches: its fields lead the dispatch there. -/
theorem decode_map_opcodeRow_of_match {w : Word} {j : Instr} (h : w &&& (opcodeRow j).1 = (opcodeRow j).2)
    (hsys : (∃ a, j = .sys a) → w ≠ 0x00E0#16 ∧ w ≠ 0x00EE#16) : (decode w).map opcodeRow = .ok (opcodeRow j) := by
  cases j with
  | cls | ret =>
    rw [opcodeRow, and_mask_ignoring_none] at h
    rw [h]; rfl
  | sys a =>
    obtain ⟨hcls, hret⟩ := hsys ⟨a, rfl⟩
    rw [opcodeRow] at h
    rw [decode_of_family0 (fieldN1_of_and_mask_family h), decodeFamily0_of_ne hcls hret]; rfl
  | jp | call | ldI | jpV0 | seImm | sneImm | ldImm | addImm | rnd | seReg | sneReg | drw =>
    rw [opcodeRow] at h
    rw [decode, fieldN1_of_and_mask_family h]; rfl
  | ldReg | orReg | andReg | xorReg | addReg | sub | shr | subn | shl =>
    rw [opcodeRow] at h
    obtain ⟨hf, hn⟩ := fields_of_and_mask_family_n h
    rw [decode_of_family8 hf, decodeFamily8, hn]; rfl
  | skp | sknp =>
    rw [opcodeRow] at h
    obtain ⟨hf, hn⟩ := fields_of_and_mask_family_nn h
    rw [decode_of_familyE hf, decodeFamilyE, hn]; rfl
  | ldVxDt | ldVxK | ldDtVx | ldStVx | addI | ldF | ldB | stRegs | ldRegs =>
    rw [opcodeRow] at h
    obtain ⟨hf, hn⟩ := fields_of_and_mask_family_nn h
    rw [decode_of_familyF hf, decodeFamilyF, hn]; rfl

/-- Settles O7: a decoded word agrees with its instruction's word on the row's mask, and the fields that a row
fixes are those the dispatch reads. -/
theorem decodeFollowsTheOpcodeMap : Obligations.DecodeFollowsTheOpcodeMap := by
  refine ⟨fun w i h => ⟨and_opcodeRow_mask_of_decode h, ?legacy⟩, fun w j h hsys => ?matched⟩
  case legacy =>
    rintro ⟨a, rfl⟩
    exact ne_of_decode_sys h
  case matched =>
    have hrow := decode_map_opcodeRow_of_match h hsys
    cases hd : decode w with
    | error e => rw [hd] at hrow; cases hrow
    | ok i => rw [hd] at hrow; exact ⟨i, rfl, Except.ok.inj hrow⟩

/-! ### The illegal words -/

theorem decodeFamily8_eq_error_iff (w : Word) (e : DecodeError) :
    decodeFamily8 w = .error e ↔ e = .unknownWord w ∧ w.toNat % 16 ∈ [0x8, 0x9, 0xA, 0xB, 0xC, 0xD, 0xF] := by
  rw [← fieldN_toNat, decodeFamily8]
  split
  case h_10 =>
    have hlt := (fieldN w).isLt
    have hn : (fieldN w).toNat ∈ [0x8, 0x9, 0xA, 0xB, 0xC, 0xD, 0xF] := by
      simp only [List.mem_cons, List.not_mem_nil, or_false]
      grind
    simp [hn, eq_comm]
  all_goals
    rename_i hn
    simp [hn]

theorem decodeFamilyE_eq_error_iff (w : Word) (e : DecodeError) :
    decodeFamilyE w = .error e ↔ e = .unknownWord w ∧ w.toNat % 256 ∉ [0x9E, 0xA1] := by
  rw [← fieldNN_toNat, decodeFamilyE]
  split
  case h_3 => simp_all [eq_comm]
  all_goals
    rename_i hn
    simp [hn]

theorem decodeFamilyF_eq_error_iff (w : Word) (e : DecodeError) :
    decodeFamilyF w = .error e ↔
      e = .unknownWord w ∧ w.toNat % 256 ∉ [0x07, 0x0A, 0x15, 0x18, 0x1E, 0x29, 0x33, 0x55, 0x65] := by
  rw [← fieldNN_toNat, decodeFamilyF]
  split
  case h_10 => simp_all [eq_comm]
  all_goals
    rename_i hn
    simp [hn]

/-- The words of 30_encoding.md R80. -/
def IsIllegal (w : Word) : Prop :=
  (w.toNat / 4096 = 0x8 ∧ w.toNat % 16 ∈ [0x8, 0x9, 0xA, 0xB, 0xC, 0xD, 0xF]) ∨
  (w.toNat / 4096 = 0xE ∧ w.toNat % 256 ∉ [0x9E, 0xA1]) ∨
  (w.toNat / 4096 = 0xF ∧ w.toNat % 256 ∉ [0x07, 0x0A, 0x15, 0x18, 0x1E, 0x29, 0x33, 0x55, 0x65])

theorem decode_eq_error_iff (w : Word) (e : DecodeError) :
    decode w = .error e ↔ e = .unknownWord w ∧ IsIllegal w := by
  rw [IsIllegal, ← fieldN1_toNat, decode]
  split
  case h_9 hf => rw [decodeFamily8_eq_error_iff]; simp [hf]
  case h_15 hf => rw [decodeFamilyE_eq_error_iff]; simp [hf]
  case h_16 =>
    have hlt := (fieldN1 w).isLt
    have hf : (fieldN1 w).toNat = 0xF := by grind
    rw [decodeFamilyF_eq_error_iff]; simp [hf]
  all_goals
    rename_i hf
    simp [hf]

/-- Settles O8: only families 0x8, 0xE and 0xF can fail, each on the sub-discriminants its dispatch has no arm for. -/
theorem illegalWordsAreExactlyThoseListed : Obligations.IllegalWordsAreExactlyThoseListed := by
  intro w
  refine ⟨⟨?fails, ?listed⟩, fun e h => ((decode_eq_error_iff w e).1 h).1⟩
  case fails => exact fun ⟨e, h⟩ => ((decode_eq_error_iff w e).1 h).2
  case listed => exact fun h => ⟨_, (decode_eq_error_iff w _).2 ⟨rfl, h⟩⟩

/-- Settles O4: each of the twelve words is decoded. -/
theorem sampleWordsDecode : Obligations.SampleWordsDecode := by
  unfold Obligations.SampleWordsDecode
  decide

end Sys2Proof
end

section
/-! SUPPORT. What each instruction of family 0x0, the jump and the call answer, and with it the statements about them
(40_family0_jump_call.md). What they leave unchanged is `exec_keepsAllBut`. -/

namespace Sys2Proof

/-- A word of format NNN from its value. -/
theorem ofNat_eq_wordNNN (f : Nibble) (addr : Addr) :
    BitVec.ofNat 16 (f.toNat * 0x1000 + addr.toNat) = wordNNN f addr := by
  rw [← wordNNN_toNat, BitVec.ofNat_toNat, BitVec.setWidth_eq]

end Sys2Proof

namespace Sys2Proof.Machine

/-! ### A part that two states have in common after all -/

/-- A part that is not changed need not be named as an exception. -/
theorem KeepsAllBut.drop {p : Part} {ps : List Part} {s t : State} (h : KeepsAllBut (p :: ps) s t)
    (hp : SamePart p s t) : KeepsAllBut ps s t := by
  intro q hq
  by_cases hqp : q = p
  · exact hqp ▸ hp
  · exact h q (List.not_mem_cons_of_ne_of_not_mem hqp hq)

/-! ### Clear screen, legacy call, jump -/

/-- Settles O13: the display is the clear one, and the frame is that of the instruction. -/
theorem clsTurnsEveryPixelOff : Obligations.ClsTurnsEveryPixelOff := by
  intro s
  have hexec : exec .cls s = .next (s.setDisplay Display.clear) := rfl
  exact ⟨_, hexec, Display.pixel_clear, exec_keepsAllBut hexec⟩

/-- Settles O15: the next state is the state. -/
theorem sysChangesNothing : Obligations.SysChangesNothing := by
  intro s addr
  have hexec : exec (.sys addr) s = .next s := rfl
  exact ⟨s, hexec, exec_keepsAllBut hexec⟩

/-- Settles O16: the word is the jump's encoding, and an address is kept when it is widened to `pc`. -/
theorem jpInstallsItsAddress : Obligations.JpInstallsItsAddress := by
  intro s addr
  have hword : BitVec.ofNat 16 (0x1000 + addr.toNat) = encode (.jp addr) := ofNat_eq_wordNNN 0x1#4 addr
  have hexec : exec (.jp addr) s = .next (s.setPc (addrWord addr)) := rfl
  exact ⟨hword ▸ decode_encode rfl, _, hexec, addrWord_toNat addr, exec_keepsAllBut hexec⟩

/-! ### Return -/

/-- A return answers as the pop does when the stack is not empty. -/
theorem exec_ret_of_pop {s u : State} {w : Word} (h : s.pop = .ok (w, u)) : exec .ret s = .next (u.setPc w) := by
  simp only [exec, execRet, h]

/-- A return with an empty stack faults (decision D3). -/
theorem exec_ret_of_sp_zero {s : State} (h : s.sp.val = 0) : exec .ret s = .fault .stackUnderflow := by
  simp only [exec, execRet, raise, (s.pop_eq_error_iff .stackUnderflow).2 ⟨h, rfl⟩]

/-- Settles O14: by what a pop can do; it writes no slot, so the frame keeps the popped one too. -/
theorem retPopsTheProgramCounter : Obligations.RetPopsTheProgramCounter := by
  refine ⟨fun s k hk => ?pops, fun s => exec_ret_of_sp_zero⟩
  case pops =>
    have hpop := (s.pop_eq_ok_iff _ _).2 ⟨by omega, rfl, rfl⟩
    have hexec := exec_ret_of_pop hpop
    have htop : s.sp.val - 1 = k.val := by omega
    refine ⟨_, hexec, ?slot, htop, exec_keepsAllBut hexec⟩
    case slot => simp only [State.setPc_pc, htop, Fin.getElem_fin]

/-! ### Call -/

/-- A call answers as the push of `pc` does when the stack is not full. -/
theorem exec_call_of_push {s u : State} {addr : Addr} (h : s.push s.pc = .ok u) :
    exec (.call addr) s = .next (u.setPc (addrWord addr)) := by
  simp only [exec, execCall, h]

/-- A call with a full stack faults (decision D3). -/
theorem exec_call_of_sp_full {s : State} {addr : Addr} (h : s.sp.val = 16) :
    exec (.call addr) s = .fault .stackOverflow := by
  simp only [exec, execCall, raise, (s.push_eq_error_iff s.pc .stackOverflow).2 ⟨h, rfl⟩]

/-- Settles O17: by what a push can do; the pushed word stands in slot SP, and every other slot is as before. -/
theorem callPushesAndJumps : Obligations.CallPushesAndJumps := by
  refine ⟨fun s addr k hk => ?pushes, fun s addr => exec_call_of_sp_full⟩
  case pushes =>
    have hpush := (s.push_eq_ok_iff s.pc _).2 ⟨by omega, rfl⟩
    have hexec := exec_call_of_push (addr := addr) hpush
    have hframe := (exec_keepsAllBut hexec).mono (qs := [.pc, .sp, .stack]) (by simp [writesOf])
    refine ⟨_, hexec, addrWord_toNat addr, congrArg (· + 1) hk, ?pushed, fun j hj => ?other, hframe⟩
    case pushed => simp [hk]
    case other => simp [hk, Fin.val_inj, hj.symm]

/-! ### A call and its return -/

/-- Settles O18: the return pops what the call pushed, so that of the parts the two may write only the stack can differ,
and there only in the one slot. -/
theorem returnUndoesCall : Obligations.ReturnUndoesCall := by
  intro s addr p hsp
  obtain ⟨t, hcall, -, htsp, hpushed, hother, hcallFrame⟩ := callPushesAndJumps.1 s addr ⟨s.sp.val, hsp⟩ rfl
  obtain ⟨u, hret, hupc, husp, hretFrame⟩ := retPopsTheProgramCounter.1 (t.setPc p) ⟨s.sp.val, hsp⟩ htsp
  have hslots : ∀ j : Fin 16, u.stack[j] = t.stack[j] := hretFrame .stack (by simp)
  have hframe : KeepsAllBut [.pc, .sp, .stack] s u :=
    (hcallFrame.trans ((t.setPc_keepsAllBut p).mono (by simp))).trans (hretFrame.mono (by simp))
  refine ⟨t, u, hcall, hret, (hframe.drop ?pc).drop ?sp, fun j hj => ?slot⟩
  case pc => exact hupc.trans hpushed
  case sp => exact Fin.ext husp
  case slot => exact (hslots j).trans (hother j fun h => hj (congrArg Fin.val h))

end Sys2Proof.Machine
end

section
/-! SUPPORT. What a conditional skip answers, and with it the statements about the skips over an immediate and over a
second register (41_skips.md). -/

namespace Sys2Proof

/-! ### The words of the skips -/

/-- A word of format XNN from its value. -/
theorem ofNat_eq_wordXNN (f : Nibble) (x : Reg) (nn : Byte) :
    BitVec.ofNat 16 (f.toNat * 0x1000 + x.toNat * 256 + nn.toNat) = wordXNN f x nn := by
  rw [← wordXNN_toNat, BitVec.ofNat_toNat, BitVec.setWidth_eq]

/-- A word of format XYN from its value. -/
theorem ofNat_eq_wordXYN (f : Nibble) (x y : Reg) (n : Nibble) :
    BitVec.ofNat 16 (f.toNat * 0x1000 + x.toNat * 256 + y.toNat * 16 + n.toNat) = wordXYN f x y n := by
  rw [← wordXYN_toNat, BitVec.ofNat_toNat, BitVec.setWidth_eq]

/-- The mask of a form that ignores `N4` puts 0 for that field of a word of format XYN. -/
theorem wordXYN_and_mask_ignoring_n (f : Nibble) (x y : Reg) (n : Nibble) :
    wordXYN f x y n &&& 0xFFF0#16 = wordXYN f x y 0x0#4 := by
  rw [and_mask_ignoring_n, fieldN1_wordXYN, fieldX_wordXYN, fieldY_wordXYN]

theorem decode_seReg_word (x y : Reg) (n : Nibble) : decode (wordXYN 0x5#4 x y n) = .ok (.seReg x y) :=
  decode_of_encode_eq rfl (wordXYN_and_mask_ignoring_n 0x5#4 x y n).symm

theorem decode_sneReg_word (x y : Reg) (n : Nibble) : decode (wordXYN 0x9#4 x y n) = .ok (.sneReg x y) :=
  decode_of_encode_eq rfl (wordXYN_and_mask_ignoring_n 0x9#4 x y n).symm

end Sys2Proof

namespace Sys2Proof.Machine

/-! ### What a skip does -/

/-- The comparison of a skip is that of the bytes' unsigned values (41_skips.md R110). -/
theorem byte_beq_iff_toNat_eq (a b : Byte) : (a == b) = true ↔ a.toNat = b.toNat := by
  rw [beq_iff_eq, BitVec.toNat_inj]

theorem byte_bne_iff_toNat_ne (a b : Byte) : (a != b) = true ↔ a.toNat ≠ b.toNat := by
  rw [bne_iff_ne, BitVec.toNat_ne_iff_ne]

/-- A skip on a condition adds 2 to `pc` when the condition holds, and changes nothing else (41_skips.md R110). -/
theorem exec_skip_of_iff {i : Instr} {s : State} {c : Bool} {P : Prop} [Decidable P]
    (hexec : exec i s = .next (s.skipIf c)) (hc : c = true ↔ P) :
    ∃ t, exec i s = .next t ∧ t.pc = (if P then s.pc + 2#16 else s.pc) ∧ KeepsAllBut [.pc] s t := by
  refine ⟨_, hexec, ?pc, s.skipIf_keepsAllBut c⟩
  case pc => simp only [State.skipIf_pc, hc]

/-! ### The skips over an immediate and over a register -/

/-- Settles O20: the words are the two skips' encodings, and each is a skip on a comparison of bytes. -/
theorem immediateSkipsCompareAndAdvance : Obligations.ImmediateSkipsCompareAndAdvance := by
  refine ⟨fun x nn => ⟨?equalWord, ?unequalWord⟩, fun s x nn => ?equal, fun s x nn => ?unequal⟩
  case equalWord =>
    have hword : BitVec.ofNat 16 (0x3000 + x.toNat * 256 + nn.toNat) = encode (.seImm x nn) :=
      ofNat_eq_wordXNN 0x3#4 x nn
    exact hword ▸ decode_encode rfl
  case unequalWord =>
    have hword : BitVec.ofNat 16 (0x4000 + x.toNat * 256 + nn.toNat) = encode (.sneImm x nn) :=
      ofNat_eq_wordXNN 0x4#4 x nn
    exact hword ▸ decode_encode rfl
  case equal => exact exec_skip_of_iff rfl (byte_beq_iff_toNat_eq (s.getV x) nn)
  case unequal => exact exec_skip_of_iff rfl (byte_bne_iff_toNat_ne (s.getV x) nn)

/-- Settles O21: the low nibble of the words is masked away, and each is a skip on a comparison of bytes. -/
theorem registerSkipsCompareAndAdvance : Obligations.RegisterSkipsCompareAndAdvance := by
  refine ⟨fun x y n => ⟨?equalWord, ?unequalWord⟩, fun s x y => ?equal, fun s x y => ?unequal⟩
  case equalWord =>
    have hword : BitVec.ofNat 16 (0x5000 + x.toNat * 256 + y.toNat * 16 + n.toNat) = wordXYN 0x5#4 x y n :=
      ofNat_eq_wordXYN 0x5#4 x y n
    exact hword ▸ decode_seReg_word x y n
  case unequalWord =>
    have hword : BitVec.ofNat 16 (0x9000 + x.toNat * 256 + y.toNat * 16 + n.toNat) = wordXYN 0x9#4 x y n :=
      ofNat_eq_wordXYN 0x9#4 x y n
    exact hword ▸ decode_sneReg_word x y n
  case equal => exact exec_skip_of_iff rfl (byte_beq_iff_toNat_eq (s.getV x) (s.getV y))
  case unequal => exact exec_skip_of_iff rfl (byte_bne_iff_toNat_ne (s.getV x) (s.getV y))

end Sys2Proof.Machine
end

section
/-! SUPPORT. What a write of one register keeps of the others, and with it the statements about the immediates
(42_immediate.md). -/

namespace Sys2Proof.Machine

/-- A register write keeps every other register: VF too, unless it is the one written. -/
theorem State.setV_keepsRegsBut (s : State) (x : Reg) (b : Byte) : KeepsRegsBut [x] s (s.setV x b) :=
  fun _ hk => s.getV_setV_ne b (List.ne_of_not_mem_cons hk)

/-- Settles O24: the word is the instruction's encoding, and the one register write is that of the sum of bytes. -/
theorem addImmWrapsWithoutFlag : Obligations.AddImmWrapsWithoutFlag := by
  intro s x nn
  have hword : BitVec.ofNat 16 (0x7000 + x.toNat * 256 + nn.toNat) = encode (.addImm x nn) :=
    ofNat_eq_wordXNN 0x7#4 x nn
  have hexec : exec (.addImm x nn) s = .next (s.setV x (s.getV x + nn)) := rfl
  refine ⟨hword ▸ decode_encode rfl, _, hexec, ?sum, s.setV_keepsRegsBut x _, exec_keepsAllBut hexec⟩
  case sum => rw [State.getV_setV_self, BitVec.toNat_add]

/-- Settles O23: the word is the instruction's encoding, and the one register write is that of the immediate. -/
theorem ldImmLoadsTheImmediate : Obligations.LdImmLoadsTheImmediate := by
  intro s x nn
  have hword : BitVec.ofNat 16 (0x6000 + x.toNat * 256 + nn.toNat) = encode (.ldImm x nn) :=
    ofNat_eq_wordXNN 0x6#4 x nn
  have hexec : exec (.ldImm x nn) s = .next (s.setV x nn) := rfl
  exact ⟨hword ▸ decode_encode rfl, _, hexec, s.getV_setV_self x nn, s.setV_keepsRegsBut x nn, exec_keepsAllBut hexec⟩

end Sys2Proof.Machine
end

section
/-! SUPPORT. What a write of one register answers, and a write of a result with VF as the flag after it, and with them the
statements about the arithmetic of two registers and the shifts (43_alu.md). -/

namespace Sys2Proof.Machine

/-! ### Copy, or, and, xor -/

/-- An instruction that writes one register, and no flag, keeps every other register and every other part. -/
theorem exec_setV {i : Instr} {s : State} {x : Reg} {b : Byte} (hexec : exec i s = .next (s.setV x b)) :
    ∃ t, exec i s = .next t ∧ t.getV x = b ∧ KeepsRegsBut [x] s t ∧ KeepsAllBut [.regs] s t :=
  ⟨_, hexec, s.getV_setV_self x b, s.setV_keepsRegsBut x b, s.setV_keepsAllBut x b⟩

/-- The same, where each bit of the byte written is a function of the bits of the operands. -/
theorem exec_setV_bitwise {i : Instr} {s : State} {x y : Reg} {b : Byte} {f : Bool → Bool → Bool}
    (hexec : exec i s = .next (s.setV x b))
    (hbit : ∀ k, b.getLsbD k = f ((s.getV x).getLsbD k) ((s.getV y).getLsbD k)) :
    ∃ t, exec i s = .next t ∧ (∀ k < 8, (t.getV x).getLsbD k = f ((s.getV x).getLsbD k) ((s.getV y).getLsbD k)) ∧
      KeepsRegsBut [x] s t ∧ KeepsAllBut [.regs] s t := by
  obtain ⟨t, ht, rfl, hregs, hparts⟩ := exec_setV hexec
  exact ⟨t, ht, fun k _ => hbit k, hregs, hparts⟩

/-- Settles O25: each is one register write, of Vy or of a byte computed bit by bit. -/
theorem copyAndLogicWriteNoFlag : Obligations.CopyAndLogicWriteNoFlag := by
  refine fun s x y => ⟨?copy, ?or, ?and, ?xor⟩
  case copy => exact exec_setV rfl
  case or => exact exec_setV_bitwise rfl fun _ => BitVec.getLsbD_or
  case and => exact exec_setV_bitwise rfl fun _ => BitVec.getLsbD_and
  case xor => exact exec_setV_bitwise rfl fun _ => BitVec.getLsbD_xor

/-! ### The flags as values -/

theorem flagByte_carryOut_toNat (a b : Byte) :
    (flagByte (carryOut a b)).toNat = if a.toNat + b.toNat > 255 then 1 else 0 := by
  simp only [flagByte_toNat, carryOut, decide_eq_true_eq]

theorem flagByte_notBorrow_toNat (a b : Byte) :
    (flagByte (notBorrow a b)).toNat = if a.toNat ≥ b.toNat then 1 else 0 := by
  simp only [flagByte_toNat, notBorrow, decide_eq_true_eq]

/-- As a flag, a bit of a byte has the value of that binary digit. -/
theorem flagByte_getLsbD_toNat (a : Byte) (k : Nat) : (flagByte (a.getLsbD k)).toNat = a.toNat / 2 ^ k % 2 := by
  rw [flagByte_toNat, BitVec.getLsbD, ← Nat.toNat_testBit]
  cases a.toNat.testBit k <;> rfl

theorem flagByte_shiftedOutRight_toNat (a : Byte) : (flagByte (shiftedOutRight a)).toNat = a.toNat % 2 := by
  rw [shiftedOutRight, flagByte_getLsbD_toNat, pow_zero, Nat.div_one]

/-- Bit 7 is the topmost one, so that no digit above it has to be taken away. -/
theorem flagByte_shiftedOutLeft_toNat (a : Byte) : (flagByte (shiftedOutLeft a)).toNat = a.toNat / 128 := by
  rw [shiftedOutLeft, flagByte_getLsbD_toNat]
  omega

/-! ### A result, then the flag -/

/-- A result and a flag are written to the destination and to VF alone. -/
theorem State.setVThenFlag_keepsRegsBut (s : State) (x : Reg) (b : Byte) (c : Bool) :
    KeepsRegsBut [x, vF] s (s.setVThenFlag x b c) := by
  intro k hk
  obtain ⟨hx, hF⟩ : k ≠ x ∧ k ≠ vF := by simpa using hk
  exact s.getV_setVThenFlag_ne b c hx hF

/-- An instruction that writes a result and then a flag: VF is the flag even where it is the destination
(10_state.md R22). -/
theorem exec_setVThenFlag {i : Instr} {s : State} {x : Reg} {b : Byte} {c : Bool}
    (hexec : exec i s = .next (s.setVThenFlag x b c)) :
    ∃ t, exec i s = .next t ∧ (x ≠ vF → t.getV x = b) ∧ t.getV vF = flagByte c ∧ KeepsRegsBut [x, vF] s t ∧
      KeepsAllBut [.regs] s t :=
  ⟨_, hexec, s.getV_setVThenFlag_self b c, s.getV_setVThenFlag_vF x b c, s.setVThenFlag_keepsRegsBut x b c,
    s.setVThenFlag_keepsAllBut x b c⟩

/-- Settles O26: the sum is that of bytes, and the flag its carry. -/
theorem addRegCarriesIntoVF : Obligations.AddRegCarriesIntoVF := by
  intro s x y
  obtain ⟨t, ht, hresult, hflag, hframe⟩ := exec_setVThenFlag (i := .addReg x y) (s := s) rfl
  refine ⟨t, ht, fun hx => ?sum, ?carry, hframe⟩
  case sum => rw [hresult hx, BitVec.toNat_add]
  case carry => rw [hflag, flagByte_carryOut_toNat]

/-- The difference of bytes is the integer difference modulo 256. -/
theorem byte_sub_toNat (a b : Byte) : ((a - b).toNat : Int) = (a.toNat - b.toNat : Int) % 256 := by
  rw [BitVec.toNat_sub]
  omega

/-- What the two subtractions have in common: `a - b` is written, then the flag for no borrow. -/
theorem exec_setVThenFlag_sub {i : Instr} {s : State} {x : Reg} {a b : Byte}
    (hexec : exec i s = .next (s.setVThenFlag x (a - b) (notBorrow a b))) :
    ∃ t, exec i s = .next t ∧ (x ≠ vF → ((t.getV x).toNat : Int) = (a.toNat - b.toNat : Int) % 256) ∧
      (t.getV vF).toNat = (if a.toNat ≥ b.toNat then 1 else 0) ∧ KeepsRegsBut [x, vF] s t ∧ KeepsAllBut [.regs] s t := by
  obtain ⟨t, ht, hresult, hflag, hframe⟩ := exec_setVThenFlag hexec
  refine ⟨t, ht, fun hx => ?difference, ?noBorrow, hframe⟩
  case difference => rw [hresult hx, byte_sub_toNat]
  case noBorrow => rw [hflag, flagByte_notBorrow_toNat]

/-- Settles O27: it is the subtraction `V[x] - V[y]`. -/
theorem subFlagsNoBorrow : Obligations.SubFlagsNoBorrow :=
  fun _ _ _ => exec_setVThenFlag_sub rfl

/-- Settles O28: it is the subtraction `V[y] - V[x]`. -/
theorem subnFlagsNoBorrow : Obligations.SubnFlagsNoBorrow :=
  fun _ _ _ => exec_setVThenFlag_sub rfl

/-- Settles O29: a shift right by one is a division by 2, and the bit shifted out its remainder. -/
theorem shrShiftsOutBitZero : Obligations.ShrShiftsOutBitZero := by
  intro s x
  obtain ⟨t, ht, hresult, hflag, hframe⟩ := exec_setVThenFlag (i := .shr x) (s := s) rfl
  refine ⟨t, ht, fun hx => ?half, ?bitZero, hframe⟩
  case half => rw [hresult hx, BitVec.toNat_ushiftRight, Nat.shiftRight_one]
  case bitZero => rw [hflag, flagByte_shiftedOutRight_toNat]

/-- Settles O30: a shift left by one is a doubling modulo 256, and the bit shifted out the topmost digit. -/
theorem shlShiftsOutBitSeven : Obligations.ShlShiftsOutBitSeven := by
  intro s x
  obtain ⟨t, ht, hresult, hflag, hframe⟩ := exec_setVThenFlag (i := .shl x) (s := s) rfl
  refine ⟨t, ht, fun hx => ?twice, ?bitSeven, hframe⟩
  case twice => rw [hresult hx, BitVec.toNat_shiftLeft, Nat.shiftLeft_eq, pow_one]
  case bitSeven => rw [hflag, flagByte_shiftedOutLeft_toNat]

end Sys2Proof.Machine
end

section
/-! SUPPORT. What the random draw keeps and what the jump with offset adds up to, and with them the statements about load
index, jump with offset and the random-masked load (44_index_jumpoffset_random.md). -/

namespace Sys2Proof.Machine

/-! ### The random-masked load -/

/-- A masked byte has no bit outside the mask. -/
theorem byte_and_mask_and_not_mask (b nn : Byte) : b &&& nn &&& ~~~nn = 0x00#8 := by
  rw [BitVec.and_assoc, BitVec.and_not_self]
  exact BitVec.and_zero

/-- A draw writes no register, so a register write after it keeps every other one as it was before the draw. -/
theorem State.drawRandom_setV_keepsRegsBut (s : State) (x : Reg) (b : Byte) :
    KeepsRegsBut [x] s (s.drawRandom.2.setV x b) := by
  intro k hk
  rw [s.drawRandom.2.setV_keepsRegsBut x b k hk, State.drawRandom_getV]

/-- Settles O32: Vx is written with the masked draw, on the state whose draw counter has gone up. -/
theorem rndMasksAFreeDraw : Obligations.RndMasksAFreeDraw := by
  intro s x nn
  have hexec : exec (.rnd x nn) s = .next (s.drawRandom.2.setV x (Config.randomByte s.draws &&& nn)) := rfl
  have hbyte := s.drawRandom.2.getV_setV_self x (Config.randomByte s.draws &&& nn)
  refine ⟨_, hexec, hbyte, ?mask, ?counter, s.drawRandom_setV_keepsRegsBut x _, exec_keepsAllBut hexec⟩
  case mask => rw [hbyte, byte_and_mask_and_not_mask]
  case counter => rw [State.setV_draws, State.drawRandom_draws]

/-! ### Jump with offset -/

/-- The sum of a 12-bit address and a byte does not wrap in 16 bits. -/
theorem addrWord_add_byteWord_toNat (addr : Addr) (b : Byte) :
    (addrWord addr + byteWord b).toNat = addr.toNat + b.toNat := by
  simp only [addrWord, byteWord, BitVec.toNat_add, BitVec.toNat_setWidth]
  omega

/-- Settles O19: the register is V0 for every address, and the sum is that of the values. -/
theorem jpV0AddsVZero : Obligations.JpV0AddsVZero := by
  intro s addr
  have hexec : exec (.jpV0 addr) s = .next (s.setPc (addrWord addr + byteWord (s.getV 0x0#4))) := rfl
  exact ⟨_, hexec, addrWord_add_byteWord_toNat addr _, exec_keepsAllBut hexec⟩

/-! ### Load index -/

/-- Settles O38: the word is the instruction's encoding, and an address is kept when it is widened to I. -/
theorem ldILoadsTheAddress : Obligations.LdILoadsTheAddress := by
  intro s addr
  have hword : BitVec.ofNat 16 (0xA000 + addr.toNat) = encode (.ldI addr) := ofNat_eq_wordNNN 0xA#4 addr
  have hexec : exec (.ldI addr) s = .next (s.setI (addrWord addr)) := rfl
  exact ⟨hword ▸ decode_encode rfl, _, hexec, addrWord_toNat addr, exec_keepsAllBut hexec⟩

end Sys2Proof.Machine
end

section
/-! SUPPORT. What a draw whose bytes lie in the memory answers, pixel by pixel, and with it the statements about draw
sprite (45_draw.md). -/

namespace Sys2Proof.Machine

/-! ### The sprite of a draw -/

/-- The `n` bytes of a sprite, from I up (45_draw.md R160). -/
def State.spriteBytes (s : State) (n : Nibble) : List Byte :=
  (List.range n.toNat).map fun k => s.mem.read (s.i.toNat + k)

@[simp] theorem State.length_spriteBytes (s : State) (n : Nibble) : (s.spriteBytes n).length = n.toNat := by
  simp [State.spriteBytes]

@[simp] theorem State.getElem_spriteBytes (s : State) (n : Nibble) (k : Nat) (h : k < (s.spriteBytes n).length) :
    (s.spriteBytes n)[k] = s.mem.read (s.i.toNat + k) := by
  simp [State.spriteBytes]

theorem spriteRow_eq_iff (vy : Byte) (row : Nat) (y : Fin 32) :
    spriteRow vy row = y ↔ y.val = (vy.toNat + row) % 32 :=
  Fin.ext_iff.trans eq_comm

theorem spriteColumn_eq_iff (vx : Byte) (col : Nat) (x : Fin 64) :
    spriteColumn vx col = x ↔ x.val = (vx.toNat + col) % 64 :=
  Fin.ext_iff.trans eq_comm

/-- The pixels that the rows at I cover are those of the wrapped mask. -/
theorem spriteCovers_spriteBytes_iff (s : State) (x y : Reg) (n : Nibble) (py : Fin 32) (px : Fin 64) :
    spriteCovers (s.getV x) (s.getV y) 0 (s.spriteBytes n) py px ↔ SpriteMask s x y n py px := by
  simp [spriteCovers, rowCovers, SpriteMask, spriteBit, spriteRow_eq_iff, spriteColumn_eq_iff]

/-- The mask is told by the sprite's bytes, by I and by the two coordinates, and so it survives a change of display and of
other registers. -/
theorem spriteMask_congr {s t : State} {x y : Reg} {n : Nibble} (h : KeepsAllBut [.regs, .display] s t)
    (hx : t.getV x = s.getV x) (hy : t.getV y = s.getV y) (py : Fin 32) (px : Fin 64) :
    SpriteMask t x y n py px ↔ SpriteMask s x y n py px := by
  have hmem : ∀ a, t.mem.read a = s.mem.read a := h .mem (by simp)
  have hi : t.i = s.i := h .i (by simp)
  simp only [SpriteMask, hmem, hi, hx, hy]

/-! ### The draw -/

/-- The frame buffer after a draw, and its collision. -/
def State.drawSprite (s : State) (x y : Reg) (n : Nibble) : Display × Bool :=
  plotRows (s.getV x) (s.getV y) 0 (s.spriteBytes n) (s.display, false)

/-- A draw whose bytes lie in the memory writes the frame buffer and then VF. -/
theorem exec_drw_of_inside {s : State} {n : Nibble} (x y : Reg) (h : n.toNat = 0 ∨ s.i.toNat + n.toNat ≤ 4096) :
    exec (.drw x y n) s = .next ((s.setDisplay (s.drawSprite x y n).1).setFlag (s.drawSprite x y n).2) := by
  have hread : s.readSpan s.i.toNat n.toNat = .ok (s.spriteBytes n) := (s.readSpan_eq_ok_iff _ _ _).2 ⟨h, rfl⟩
  simp only [exec, execDrw, hread, State.drawSprite]

/-- A draw with a byte outside the memory faults (decision D2). -/
theorem exec_drw_of_not_inside {s : State} {n : Nibble} (x y : Reg) (h : ¬(n.toNat = 0 ∨ s.i.toNat + n.toNat ≤ 4096)) :
    exec (.drw x y n) s = .fault .memOutOfBounds := by
  have hread : s.readSpan s.i.toNat n.toNat = .error .memOutOfBounds := (s.readSpan_eq_error_iff _ _ _).2 ⟨h, rfl⟩
  simp only [exec, execDrw, hread, raise]

/-- A sprite has at most 15 rows, so that no two of them wrap into one. -/
theorem State.spriteBytes_fit (s : State) (n : Nibble) : 0 + (s.spriteBytes n).length ≤ 32 := by
  have := n.isLt
  simp only [State.length_spriteBytes]
  omega

theorem State.pixel_drawSprite (s : State) (x y : Reg) (n : Nibble) (py : Fin 32) (px : Fin 64) :
    Display.pixel (s.drawSprite x y n).1 py px = true ↔
      ¬(Display.pixel s.display py px = true ↔ SpriteMask s x y n py px) := by
  rw [State.drawSprite, pixel_plotRows _ _ _ _ (s.spriteBytes_fit n), spriteCovers_spriteBytes_iff]

theorem State.hit_drawSprite (s : State) (x y : Reg) (n : Nibble) :
    (s.drawSprite x y n).2 = true ↔ ∃ py px, SpriteMask s x y n py px ∧ Display.pixel s.display py px = true := by
  rw [State.drawSprite, hit_plotRows _ _ _ _ (s.spriteBytes_fit n)]
  simp [spriteCovers_spriteBytes_iff]

/-! ### The flag -/

theorem flagByte_eq_one_iff (c : Bool) : flagByte c = 0x01#8 ↔ c = true := by
  cases c <;> decide

theorem flagByte_eq_zero_iff (c : Bool) : flagByte c = 0x00#8 ↔ ¬c = true := by
  cases c <;> decide

/-- A flag write keeps every other register. -/
theorem State.setFlag_keepsRegsBut (s : State) (c : Bool) : KeepsRegsBut [vF] s (s.setFlag c) :=
  s.setV_keepsRegsBut vF (flagByte c)

/-- Settles O33: no pixel is plotted twice, so that plotting bit by bit is the XOR of the whole mask. -/
theorem drwXorsTheWrappedSprite : Obligations.DrwXorsTheWrappedSprite := by
  refine ⟨fun s x y n hin => ?_, fun s x y n hn hout => exec_drw_of_not_inside x y (by omega)⟩
  have hexec := exec_drw_of_inside x y hin
  refine ⟨_, hexec, s.pixel_drawSprite x y n, ?one, ?zero, State.setFlag_keepsRegsBut _ _, exec_keepsAllBut hexec⟩
  case one => rw [State.getV_setFlag_vF, flagByte_eq_one_iff, s.hit_drawSprite]
  case zero => rw [State.getV_setFlag_vF, flagByte_eq_zero_iff, s.hit_drawSprite]

/-! ### Two draws in a row -/

/-- Settles O34: the second draw has the mask of the first, and a mask XORed in twice cancels; on a clear display the first
draw leaves the mask itself, which the second then meets. -/
theorem drawingTwiceRestoresTheDisplay : Obligations.DrawingTwiceRestoresTheDisplay := by
  intro s x y n hx hy hin
  obtain ⟨t, hst, hpixT, -, hzeroT, hregsT, hkeepT⟩ := drwXorsTheWrappedSprite.1 s x y n hin
  have hi : t.i = s.i := hkeepT .i (by simp)
  obtain ⟨u, htu, hpixU, honeU, -, -, hkeepU⟩ := drwXorsTheWrappedSprite.1 t x y n (hi ▸ hin)
  have hmask : ∀ py px, SpriteMask t x y n py px ↔ SpriteMask s x y n py px :=
    spriteMask_congr hkeepT (hregsT x (by simpa using hx)) (hregsT y (by simpa using hy))
  refine ⟨t, u, hst, htu, ?restored, fun hclear => ⟨?first, ?second⟩⟩
  case restored =>
    have hdisplay : SamePart .display s u := fun py px => by
      rw [Bool.eq_iff_iff, hpixU, hpixT, hmask]
      tauto
    exact ((hkeepT.trans hkeepU).mono (by simp)).drop hdisplay
  case first => exact hzeroT.2 (by simp [hclear])
  case second =>
    have hpix : ∀ py px, Display.pixel t.display py px = true ↔ SpriteMask s x y n py px := by simp [hpixT, hclear]
    simp only [honeU, hmask, hpix, and_self]

end Sys2Proof.Machine
end

section
/-! SUPPORT. What a key skip answers for a key number and for a value that names no key, and with it the statement about
the key skips (46_keys.md). -/

namespace Sys2Proof.Machine

/-! ### The key named by a register -/

/-- A value of at most 15 tests the key of that number. -/
theorem State.testKey_of_toNat_eq {s : State} {b : Byte} {k : Fin 16} (h : b.toNat = k.val) :
    s.testKey b = .ok s.keys[k] :=
  (s.testKey_eq_ok_iff b _).2 ⟨h ▸ k.isLt, by simp only [h, Fin.getElem_fin]⟩

/-- A value above 15 names no key (46_keys.md R172, decision D4). -/
theorem State.testKey_of_le_toNat {s : State} {b : Byte} (h : 16 ≤ b.toNat) :
    s.testKey b = .error .keyIndexOutOfRange :=
  (s.testKey_eq_error_iff b _).2 ⟨h, rfl⟩

/-! ### The key skips by the answer of the key test -/

theorem exec_skp_of_testKey_eq_ok {s : State} {x : Reg} {down : Bool} (h : s.testKey (s.getV x) = .ok down) :
    exec (.skp x) s = .next (s.skipIf down) := by
  simp only [exec, execSkp, h]

theorem exec_sknp_of_testKey_eq_ok {s : State} {x : Reg} {down : Bool} (h : s.testKey (s.getV x) = .ok down) :
    exec (.sknp x) s = .next (s.skipIf (!down)) := by
  simp only [exec, execSknp, h]

theorem exec_skp_of_testKey_eq_error {s : State} {x : Reg} {f : Fault} (h : s.testKey (s.getV x) = .error f) :
    exec (.skp x) s = .fault f := by
  simp only [exec, execSkp, h, raise]

theorem exec_sknp_of_testKey_eq_error {s : State} {x : Reg} {f : Fault} (h : s.testKey (s.getV x) = .error f) :
    exec (.sknp x) s = .fault f := by
  simp only [exec, execSknp, h, raise]

/-- Settles O22: the key test alone decides between a skip and the fault, and each skip is on what it answers. -/
theorem keySkipsTestTheKeyNamedByTheValue : Obligations.KeySkipsTestTheKeyNamedByTheValue := by
  refine ⟨fun s x k hk => ?inRange, fun s x hx => ?outOfRange⟩
  case inRange =>
    have htest : s.testKey (s.getV x) = .ok s.keys[k] := State.testKey_of_toNat_eq hk
    exact ⟨exec_skip_of_iff (exec_skp_of_testKey_eq_ok htest) Iff.rfl,
      exec_skip_of_iff (exec_sknp_of_testKey_eq_ok htest) (Bool.not_eq_true' _).to_iff⟩
  case outOfRange =>
    have htest : s.testKey (s.getV x) = .error .keyIndexOutOfRange := State.testKey_of_le_toNat hx
    exact ⟨exec_skp_of_testKey_eq_error htest, exec_sknp_of_testKey_eq_error htest⟩

end Sys2Proof.Machine
end

section
/-! SUPPORT. What the timer instructions, the key wait, the index arithmetic and the stores and loads through I answer, and
with it the statements about family 0xF (47_familyF.md). -/

namespace Sys2Proof.Machine

/-! ### The fetch of a word given by its bytes -/

/-- The word fetched is told by its value, the high byte first (20_memory.md R54). -/
theorem State.fetch_of_toNat_eq {s : State} {w : Word} (hpc : s.pc.toNat + 1 < 4096)
    (hw : w.toNat = (s.mem.read s.pc.toNat).toNat * 256 + (s.mem.read (s.pc.toNat + 1)).toNat) : s.fetch = .ok w :=
  (s.fetch_eq_ok_iff w).2 ⟨hpc, BitVec.eq_of_toNat_eq (hw.trans (wordOfBytes_toNat _ _).symm)⟩

/-! ### The timers -/

/-- Settles O35: the first is one register write, the other two each the write of one timer. -/
theorem timerInstructionsMoveTheTimers : Obligations.TimerInstructionsMoveTheTimers := by
  refine fun s x => ⟨exec_setV rfl, ?delay, ?sound⟩
  case delay => exact ⟨_, rfl, rfl, s.setDt_keepsAllBut _⟩
  case sound => exact ⟨_, rfl, rfl, s.setSt_keepsAllBut _⟩

/-! ### The key wait -/

theorem exec_ldVxK_of_leastKey_eq_some {s : State} {k : Fin 16} (x : Reg) (h : s.leastKey = some k) :
    exec (.ldVxK x) s = .next (s.setV x (BitVec.ofNat 8 k.val)) := by
  simp only [exec, execLdVxK, h]

theorem exec_ldVxK_of_leastKey_eq_none {s : State} (x : Reg) (h : s.leastKey = none) :
    exec (.ldVxK x) s = .next s.rewind := by
  simp only [exec, execLdVxK, h]

/-- Settles O36: by what the least key down is; a key number fits a byte. -/
theorem keyWaitTakesTheLeastKeyOrRewinds : Obligations.KeyWaitTakesTheLeastKeyOrRewinds := by
  refine ⟨fun s x k hk hlow => ?down, fun s x hup => ?up⟩
  case down =>
    have hleast : s.leastKey = some k := (s.leastKey_eq_some_iff k).2 ⟨hk, hlow⟩
    obtain ⟨t, ht, hx, hframe⟩ := exec_setV (exec_ldVxK_of_leastKey_eq_some x hleast)
    refine ⟨t, ht, ?number, hframe⟩
    case number => rw [hx, BitVec.toNat_ofNat, Nat.mod_eq_of_lt (by omega)]
  case up =>
    have hleast : s.leastKey = none := s.leastKey_eq_none_iff.2 hup
    exact ⟨_, exec_ldVxK_of_leastKey_eq_none x hleast, rfl, s.setPc_keepsAllBut _⟩

/-- The key wait's rewind takes back the fetch's advance (10_state.md R24). -/
theorem State.rewind_advance (s : State) : s.advance.rewind = s :=
  congrArg s.setPc (BitVec.add_sub_cancel s.pc 2#16)

/-- Settles O37: the word at `pc` is the key wait's encoding, and its rewind takes the advance back. -/
theorem keyWaitStepWithNoKeyChangesNothing : Obligations.KeyWaitStepWithNoKeyChangesNothing := by
  intro s x hpc hhi hlo hup
  have hword : (encode (.ldVxK x)).toNat =
      (s.mem.read s.pc.toNat).toNat * 256 + (s.mem.read (s.pc.toNat + 1)).toNat := by
    rw [encode, wordXNN_toNat, hhi, hlo, BitVec.toNat_ofNat, BitVec.toNat_ofNat]
    omega
  have hleast : s.advance.leastKey = none := s.advance.leastKey_eq_none_iff.2 hup
  calc
    step s = exec (.ldVxK x) s.advance := step_of_decode_ok (State.fetch_of_toNat_eq hpc hword) (decode_encode rfl)
    _ = .next s.advance.rewind := exec_ldVxK_of_leastKey_eq_none x hleast
    _ = .next s := by rw [State.rewind_advance]

/-! ### The index arithmetic -/

theorem byteWord_toNat (b : Byte) : (byteWord b).toNat = b.toNat := by
  simp only [byteWord, BitVec.toNat_setWidth]
  omega

/-- A byte times 5 does not wrap in 16 bits, so that the font lookup needs no mask (47_familyF.md R185). -/
theorem byteWord_mul_glyphBytes_toNat (b : Byte) :
    (byteWord b * BitVec.ofNat 16 Config.glyphBytes).toNat = b.toNat * 5 := by
  have hb := b.isLt
  rw [BitVec.toNat_mul, byteWord_toNat]
  exact Nat.mod_eq_of_lt (by omega : b.toNat * 5 < 2 ^ 16)

/-- Settles O39: each writes I alone, with a sum of words and with a product that does not wrap. -/
theorem indexArithmeticWritesIAlone : Obligations.IndexArithmeticWritesIAlone := by
  refine fun s x => ⟨⟨_, rfl, ?sum, s.setI_keepsAllBut _⟩, ⟨_, rfl, ?product, s.setI_keepsAllBut _⟩⟩
  case sum => rw [State.setI_i, BitVec.toNat_add, byteWord_toNat]
  case product => rw [State.setI_i, byteWord_mul_glyphBytes_toNat]

/-! ### The stores -/

/-- A store of bytes that end inside the memory completes. -/
theorem finish_writeSpan_of_le {s : State} {a : Nat} {bs : List Byte} (h : a + bs.length ≤ 4096) :
    finish (s.writeSpan a bs) = .next (s.setMem (s.mem.writeAll a bs)) :=
  (finish_eq_next_iff _ _).2 ((s.writeSpan_eq_ok_iff _ _ _).2 ⟨.inr h, rfl⟩)

/-- A store of at least one byte that ends outside the memory faults (decision D2). -/
theorem finish_writeSpan_of_lt {s : State} {a : Nat} {bs : List Byte} (hne : bs.length ≠ 0)
    (h : 4096 < a + bs.length) : finish (s.writeSpan a bs) = .fault .memOutOfBounds :=
  (finish_eq_fault_iff _ _).2 ((s.writeSpan_eq_error_iff _ _ _).2 ⟨by omega, rfl⟩)

theorem exec_ldB_of_lt {s : State} (x : Reg) (h : s.i.toNat + 2 < 4096) :
    exec (.ldB x) s = .next (s.setMem (s.mem.writeAll s.i.toNat (decimalDigits (s.getV x)))) :=
  finish_writeSpan_of_le (bs := decimalDigits (s.getV x)) h

theorem exec_ldB_of_le {s : State} (x : Reg) (h : 4096 ≤ s.i.toNat + 2) :
    exec (.ldB x) s = .fault .memOutOfBounds :=
  finish_writeSpan_of_lt (bs := decimalDigits (s.getV x)) (Nat.succ_ne_zero 2) (Nat.lt_succ_of_le h)

/-- Settles O40: the three bytes stored are read back at their places, and each digit fits a byte. -/
theorem bcdStoresTheThreeDigits : Obligations.BcdStoresTheThreeDigits := by
  refine ⟨fun s x hs hin => ?stored, fun s x hout => exec_ldB_of_le x hout⟩
  case stored =>
    have hend : s.i.toNat + (decimalDigits (s.getV x)).length ≤ 4096 := hin
    have hread : ∀ (k : Nat) (hk : k < 3), (s.mem.writeAll s.i.toNat (decimalDigits (s.getV x))).read
        (s.i.toNat + k) = (decimalDigits (s.getV x))[k]'hk := Memory.read_writeAll_add hs hend
    have hbyte := (s.getV x).isLt
    refine ⟨_, exec_ldB_of_lt x hin, ?hundreds, ?tens, ?ones, State.setMem_writeAll_keepsMemOutside hs hend,
      s.setMem_keepsAllBut _⟩
    case hundreds => exact (congrArg BitVec.toNat (hread 0 (by decide))).trans (Nat.mod_eq_of_lt (by omega))
    case tens => exact (congrArg BitVec.toNat (hread 1 (by decide))).trans (Nat.mod_eq_of_lt (by omega))
    case ones => exact (congrArg BitVec.toNat (hread 2 (by decide))).trans (Nat.mod_eq_of_lt (by omega))

theorem exec_stRegs_of_le {s : State} {x : Reg} (h : 4096 ≤ s.i.toNat + x.toNat) :
    exec (.stRegs x) s = .fault .memOutOfBounds := by
  have hlen : (s.blockValues x).length = x.toNat + 1 := s.blockValues_length x
  exact finish_writeSpan_of_lt (by omega) (by omega)

/-- Settles O41: each register of the block is read back at its place, and the block has `x + 1` bytes. -/
theorem blockStoreStoresVZeroToVx : Obligations.BlockStoreStoresVZeroToVx := by
  refine ⟨fun s x hs hin => ?stored, fun s x hout => exec_stRegs_of_le hout⟩
  case stored =>
    have hlen : (s.blockValues x).length = x.toNat + 1 := s.blockValues_length x
    have hend : s.i.toNat + (s.blockValues x).length ≤ 4096 := by omega
    have houtside := State.setMem_writeAll_keepsMemOutside hs hend
    rw [hlen] at houtside
    exact ⟨_, exec_stRegs_of_lt hin, fun k hk => State.read_writeAll_blockValues hs hin hk, houtside,
      s.setMem_keepsAllBut _⟩

/-! ### The block load -/

/-- The bytes that a block load reads, from I up (47_familyF.md R188). -/
def State.blockBytes (s : State) (x : Reg) : List Byte :=
  (List.range (blockLength x)).map fun k => s.mem.read (s.i.toNat + k)

@[simp] theorem State.length_blockBytes (s : State) (x : Reg) : (s.blockBytes x).length = x.toNat + 1 := by
  simp [State.blockBytes, blockLength]

theorem State.getD_blockBytes (s : State) {x : Reg} {k : Nat} (hk : k ≤ x.toNat) :
    (s.blockBytes x).getD k 0x00#8 = s.mem.read (s.i.toNat + k) := by
  simp [State.blockBytes, blockLength, Nat.lt_succ_of_le hk]

/-- A block load whose last byte lies in the memory writes the registers from V0 up. -/
theorem exec_ldRegs_of_lt {s : State} {x : Reg} (h : s.i.toNat + x.toNat < 4096) :
    exec (.ldRegs x) s = .next (s.setBlock 0 (s.blockBytes x)) := by
  have hread : s.readSpan s.i.toNat (blockLength x) = .ok (s.blockBytes x) :=
    (s.readSpan_eq_ok_iff _ _ _).2 ⟨.inr h, rfl⟩
  simp only [exec, execLdRegs, hread]

/-- A block load with a byte outside the memory faults (decision D2). -/
theorem exec_ldRegs_of_le {s : State} {x : Reg} (h : 4096 ≤ s.i.toNat + x.toNat) :
    exec (.ldRegs x) s = .fault .memOutOfBounds := by
  have hread : s.readSpan s.i.toNat (blockLength x) = .error .memOutOfBounds :=
    (s.readSpan_eq_error_iff _ _ _).2 ⟨by simp only [blockLength]; omega, rfl⟩
  simp only [exec, execLdRegs, hread, raise]

/-- After a block load a register of the block holds its byte, every other register what it held. -/
theorem State.getV_setBlock_blockBytes (s : State) (x k : Reg) :
    (s.setBlock 0 (s.blockBytes x)).getV k =
      if k.toNat ≤ x.toNat then s.mem.read (s.i.toNat + k.toNat) else s.getV k := by
  have hlen : (s.blockBytes x).length = x.toNat + 1 := s.length_blockBytes x
  rw [State.getV_setBlock _ _ _ (by omega)]
  by_cases hk : k.toNat ≤ x.toNat
  · rw [if_pos (by omega), if_pos hk, Nat.sub_zero, s.getD_blockBytes hk]
  · rw [if_neg (by omega), if_neg hk]

/-- Settles O42: by what each register holds after the load. -/
theorem blockLoadLoadsVZeroToVx : Obligations.BlockLoadLoadsVZeroToVx := by
  refine ⟨fun s x hin => ?loaded, fun s x hout => exec_ldRegs_of_le hout⟩
  case loaded =>
    refine ⟨_, exec_ldRegs_of_lt hin, fun k hk => ?inside, fun k hk => ?above, s.setBlock_keepsAllBut 0 _⟩
    case inside => rw [State.getV_setBlock_blockBytes, if_pos hk]
    case above => rw [State.getV_setBlock_blockBytes, if_neg (by omega)]

/-! ### A block load after a block store -/

/-- A block store that answers a next state has its last byte in the memory. -/
theorem lt_of_exec_stRegs_eq_next {s t : State} {x : Reg} (h : exec (.stRegs x) s = .next t) :
    s.i.toNat + x.toNat < 4096 := by
  by_contra hout
  rw [exec_stRegs_of_le (by omega)] at h
  cases h

/-- Settles O43: the load reads, from the same I, the bytes that the store left in the memory. -/
theorem blockLoadUndoesBlockStore : Obligations.BlockLoadUndoesBlockStore := by
  intro s t s' x hs hstore hbetween
  have hin : s.i.toNat + x.toNat < 4096 := lt_of_exec_stRegs_eq_next hstore
  obtain ⟨t', hstore', hstored, -, hkeep⟩ := blockStoreStoresVZeroToVx.1 s x hs hin
  obtain rfl : t' = t := Host.Outcome.next.inj (hstore'.symm.trans hstore)
  have hiLoad : s'.i = t'.i := hbetween .i (by simp)
  have hiStore : t'.i = s.i := hkeep .i (by simp)
  have hmem : ∀ a, s'.mem.read a = t'.mem.read a := hbetween .mem (by simp)
  obtain ⟨u, hload, hloaded, habove, -⟩ := blockLoadLoadsVZeroToVx.1 s' x (by rwa [hiLoad, hiStore])
  refine ⟨u, hload, fun k hk => ?restored, habove⟩
  case restored => rw [hloaded k hk, hiLoad, hiStore, hmem, hstored k hk]

end Sys2Proof.Machine
end

section
/-! SUPPORT. How every execute phase ends, told by the table of failures, and what the operations of the host give; with
them the statements about the results of a step and about the host's contract (60_exceptions.md). -/

namespace Sys2Proof.Machine

/-! ### A decode failure -/

/-- Settles O12: the word given is the one fetched, and the state after it is the advanced one. -/
theorem decodeFailureOnlyAdvancesPc : Obligations.DecodeFailureOnlyAdvancesPc := by
  intro s w e hpc hw hd
  have hf : s.fetch = .ok w := State.fetch_of_toNat_eq hpc hw
  refine ⟨_, State.cycle_of_decode_error hf hd, step_of_decode_error hf hd, ?advanced, s.setPc_keepsAllBut _⟩
  case advanced => rw [State.advance_pc]; bv_omega

/-! ### How an execute phase ends -/

/-- An execute phase ends as the table of failures says (60_exceptions.md R202): with the fault it gives, or with a next
state where it gives none. -/
def EndsAs : Option Fault → Host.Outcome State Fault Refusal → Prop
  | some k, o => o = .fault k
  | none, o => ∃ t, o = .next t

theorem EndsAs.fault_iff {f : Option Fault} {o : Host.Outcome State Fault Refusal} (h : EndsAs f o) (k : Fault) :
    o = .fault k ↔ f = some k := by
  cases f with
  | none => obtain ⟨t, rfl⟩ := h; simp
  | some k' => obtain rfl : o = .fault k' := h; simp

theorem EndsAs.ne_refused {f : Option Fault} {o : Host.Outcome State Fault Refusal} (h : EndsAs f o) (r : Refusal) :
    o ≠ .refused r := by
  cases f with
  | none => obtain ⟨t, rfl⟩ := h; simp
  | some k => obtain rfl : o = .fault k := h; simp

/-- The shape of a table entry that gives a fault under a condition. -/
theorem endsAs_ite {P : Prop} [Decidable P] {k : Fault} {o : Host.Outcome State Fault Refusal}
    (hfault : P → o = .fault k) (hnext : ¬P → ∃ t, o = .next t) : EndsAs (if P then some k else none) o := by
  split_ifs with hP
  · exact hfault hP
  · exact hnext hP

theorem exec_ret_eq_next_of_sp_ne_zero {s : State} (h : s.sp.val ≠ 0) : ∃ t, exec .ret s = .next t :=
  ⟨_, exec_ret_of_pop ((s.pop_eq_ok_iff _ _).2 ⟨h, rfl, rfl⟩)⟩

theorem exec_call_eq_next_of_sp_ne_full {s : State} (addr : Addr) (h : s.sp.val ≠ 16) :
    ∃ t, exec (.call addr) s = .next t :=
  ⟨_, exec_call_of_push ((s.push_eq_ok_iff s.pc _).2 ⟨by omega, rfl⟩)⟩

/-- A value of at most 15 names a key. -/
theorem State.exists_testKey_eq_ok {s : State} {b : Byte} (h : ¬15 < b.toNat) : ∃ down, s.testKey b = .ok down :=
  ⟨_, State.testKey_of_toNat_eq (k := ⟨b.toNat, by omega⟩) rfl⟩

theorem exec_ldVxK_eq_next (s : State) (x : Reg) : ∃ t, exec (.ldVxK x) s = .next t := by
  cases hleast : s.leastKey with
  | some k => exact ⟨_, exec_ldVxK_of_leastKey_eq_some x hleast⟩
  | none => exact ⟨_, exec_ldVxK_of_leastKey_eq_none x hleast⟩

/-- Every execute phase ends as the table says. -/
theorem exec_endsAs (i : Instr) (s : State) : EndsAs (execFault i s) (exec i s) := by
  cases i with
  | ret => exact endsAs_ite exec_ret_of_sp_zero exec_ret_eq_next_of_sp_ne_zero
  | call addr => exact endsAs_ite exec_call_of_sp_full (exec_call_eq_next_of_sp_ne_full addr)
  | drw x y n =>
    exact endsAs_ite (fun h => exec_drw_of_not_inside x y (by omega)) fun h => ⟨_, exec_drw_of_inside x y (by omega)⟩
  | skp x =>
    refine endsAs_ite (fun h => exec_skp_of_testKey_eq_error (State.testKey_of_le_toNat h)) fun h => ?_
    obtain ⟨down, htest⟩ := s.exists_testKey_eq_ok h
    exact ⟨_, exec_skp_of_testKey_eq_ok htest⟩
  | sknp x =>
    refine endsAs_ite (fun h => exec_sknp_of_testKey_eq_error (State.testKey_of_le_toNat h)) fun h => ?_
    obtain ⟨down, htest⟩ := s.exists_testKey_eq_ok h
    exact ⟨_, exec_sknp_of_testKey_eq_ok htest⟩
  | ldB x => exact endsAs_ite (exec_ldB_of_le x) fun h => ⟨_, exec_ldB_of_lt x (by omega)⟩
  | stRegs x => exact endsAs_ite exec_stRegs_of_le fun h => ⟨_, exec_stRegs_of_lt (by omega)⟩
  | ldRegs x => exact endsAs_ite exec_ldRegs_of_le fun h => ⟨_, exec_ldRegs_of_lt (by omega)⟩
  | ldVxK x => exact exec_ldVxK_eq_next s x
  | cls | sys | jp | seImm | sneImm | seReg | sneReg | ldImm | addImm | ldReg | orReg | andReg | xorReg | addReg | sub
  | shr | subn | shl | ldI | jpV0 | rnd | ldVxDt | ldDtVx | ldStVx | addI | ldF => exact ⟨_, rfl⟩

/-- Settles O45: by how each execute phase ends. -/
theorem faultsAreExactlyThoseListed : Obligations.FaultsAreExactlyThoseListed := by
  intro i s
  have hend := exec_endsAs i s
  refine ⟨hend.fault_iff, fun hnone => ?completes⟩
  case completes =>
    rw [hnone] at hend
    exact hend

/-- Settles O46: no execute phase is refused, and a step ends as one, in a fault of the fetch, or in a decode failure. -/
theorem nothingIsRefused : Obligations.NothingIsRefused := by
  refine ⟨fun i s => (exec_endsAs i s).ne_refused, fun s r => ?step⟩
  case step =>
    cases hf : s.fetch with
    | error k => rw [step_of_fetch_error hf]; simp
    | ok w =>
      cases hd : decode w with
      | error e => rw [step_of_decode_error hf hd]; simp
      | ok i => rw [step_of_decode_ok hf hd]; exact (exec_endsAs i s.advance).ne_refused r

/-! ### The results of a cycle, by the outcome of the step -/

theorem StepResult.eq_fault_of_outcome {res : StepResult} {k : Fault} (h : res.outcome = .fault k) :
    res = .fault k := by
  cases res <;> cases h
  rfl

/-- A next state is that of a completed cycle or of a decode failure (60_exceptions.md R200, R201). -/
theorem StepResult.eq_of_outcome_next {res : StepResult} {t : State} (h : res.outcome = .next t) :
    res = .ok t ∨ ∃ w, res = .decodeError w t := by
  cases res with
  | ok => cases h; exact .inl rfl
  | decodeError w => cases h; exact .inr ⟨w, rfl⟩
  | fault | refused => cases h

/-! ### The operations of the host -/

/-- A step of a running block gives what its cycle ends in. -/
theorem Block.move_step_of_cycle_eq {s : State} {res : StepResult} (stepped : Bool) (h : s.cycle = res) :
    (Block.running s stepped).move .step = Block.afterStep s.draws res :=
  congrArg (Block.afterStep s.draws) h

/-- Settles O58: a running block answers as its cycle ends, and a faulted one by the table of what it refuses. -/
theorem faultIsRecordedUntilReset : Obligations.FaultIsRecordedUntilReset := by
  refine ⟨fun s stepped k h => ?fault, fun s t stepped h => Block.move_step_of_cycle_eq stepped h,
    fun s t w stepped h => Block.move_step_of_cycle_eq stepped h, fun s t h => StepResult.eq_of_outcome_next h,
    fun k draws => ⟨?moves, ?reads, fun bytes => rfl, fun key hkey down => if_pos hkey⟩⟩
  case fault => exact Block.move_step_of_cycle_eq stepped (StepResult.eq_fault_of_outcome h)
  case moves => simp [Block.move]
  case reads => simp [Block.move]

/-- A tick takes 1 from a timer, and natural subtraction stops at 0 as the timer does (60_exceptions.md R209). -/
theorem countDown_toNat (b : Byte) : (countDown b).toNat = b.toNat - 1 := by
  rw [countDown]
  split_ifs with hb
  · bv_omega
  · omega

/-- Settles O54: the two timers are counted down one after the other, and nothing else is written. -/
theorem tickCountsBothTimersDown : Obligations.TickCountsBothTimersDown := fun s _ =>
  ⟨s.tick, rfl, countDown_toNat s.dt, countDown_toNat s.st, (s.setDt_keepsAllBut _).append (State.setSt_keepsAllBut _ _)⟩

theorem State.putKey_keepsAllBut (s : State) (k : Fin 16) (down : Bool) : KeepsAllBut [.keys] s (s.putKey k down) := by
  intro p hp
  cases p with
  | keys => exact absurd (by simp) hp
  | regs | mem | i | pc | stack | sp | dt | st | display | draws => simp [SamePart, State.putKey, State.getV]

/-- A key written reads as it was written, every other as before. -/
theorem State.keys_putKey (s : State) (k j : Fin 16) (down : Bool) :
    (s.putKey k down).keys[j] = if j = k then down else s.keys[j] := by
  simp only [State.putKey, Fin.getElem_fin, Vector.getElem_set, Fin.val_inj, eq_comm]

/-- An index above 15 is refused in either state of the block (decision D13). -/
theorem Block.move_setKey_of_le {k : Nat} (b : Block) (down : Bool) (h : 16 ≤ k) :
    b.move (.setKey k down) = .error .keyIndexRefused := by
  cases b with
  | running s stepped => exact dif_neg (by omega)
  | faulted f draws => exact if_neg (by omega)

/-- Settles O55: the keypad is written at one index. -/
theorem setKeyWritesOneFlag : Obligations.SetKeyWritesOneFlag := by
  refine ⟨fun s stepped k down => ?written, fun b k down h => b.move_setKey_of_le down h⟩
  case written =>
    refine ⟨s.putKey k down, dif_pos k.isLt, ?key, fun j hj => ?others, s.putKey_keepsAllBut k down⟩
    case key => rw [State.keys_putKey, if_pos rfl]
    case others => rw [State.keys_putKey, if_neg hj]

/-- Settles O57: by induction on the reads; each leaves the block as it was for the next. -/
theorem readsReturnSnapshotsAndChangeNothing : Obligations.ReadsReturnSnapshotsAndChangeNothing := by
  intro p s stepped ops hops
  induction ops with
  | nil => exact ⟨[], rfl, rfl⟩
  | cons op ops ih =>
    obtain ⟨hop, hrest⟩ := List.forall_mem_cons.1 hops
    obtain ⟨replies, hrun, rfl⟩ := ih hrest
    refine ⟨_, ?run, rfl⟩
    case run => obtain rfl | rfl := hop <;> simp [Block.runWith, Block.move, hrun]

end Sys2Proof.Machine
end

section
/-! SUPPORT. What `reset` gives and what a jump to its own address does, and with them the statements about the life of the
block and the end of a run (70_reset_and_hazards.md). -/

namespace Sys2Proof.Machine

/-- Settles O3: the state after reset is the fresh one with another draw counter. -/
theorem resetRestoresEveryComponent : Obligations.ResetRestoresEveryComponent :=
  ⟨fun s _ => ⟨s.resetKeepingDraws, rfl, State.reset.withDraws_keepsAllBut s.draws, rfl, rfl⟩,
    fun _ draws => ⟨{ State.reset with draws := draws }, rfl, State.reset.withDraws_keepsAllBut draws, rfl, rfl⟩⟩

/-- A cycle of a jump whose word is at `pc` ends at the jump's address, and writes nothing else. -/
theorem State.cycle_of_fetch_jp {s : State} {addr : Addr} (hf : s.fetch = .ok (encode (.jp addr))) :
    s.cycle = .ok (s.setPc (addrWord addr)) :=
  State.cycle_of_decode_ok hf (decode_encode rfl)

/-- Settles O53: the jump's address is `pc` itself. -/
theorem jumpToItselfChangesNothing : Obligations.JumpToItselfChangesNothing := by
  rintro s ⟨hpc, addr, haddr, hword⟩
  have hf : s.fetch = .ok (encode (.jp addr)) := (s.fetch_eq_ok_iff _).2 ⟨by omega, hword.symm⟩
  have hself : s.setPc (addrWord addr) = s := congrArg s.setPc haddr.symm
  have hcycle : s.cycle = .ok s := (State.cycle_of_fetch_jp hf).trans (congrArg StepResult.ok hself)
  exact ⟨hcycle, congrArg StepResult.outcome hcycle⟩

end Sys2Proof.Machine
end
